-- ==== Sys2Proof/Word.lean ====
section
/-!
DEFINITION. The two words of the scaled multiply-divide unit: the 8-bit value of a narrow port and the 16-bit value of a
wide port (spec/00_scope.md R8, spec/10_state.md R27).
-/

namespace Sys2Proof

/-- The value of a narrow port: 8 bits, bit 7 the sign (spec/30_encoding.md R45). -/
abbrev Byte := BitVec 8

/-- The value of a wide port: 16 bits, bit 15 the sign (spec/30_encoding.md R46). -/
abbrev Half := BitVec 16

end Sys2Proof
end

