-- ==== Sys2Proof/Config.lean ====
section
/-!
DEFINITION. The parameters of a unit as built (spec/00_scope.md R9, R10, R11; spec/70_reset_and_hazards.md R119: they are
not reset state and never change). The two that the spec leaves open are constants without a body, so a theorem about the
unit holds for every admitted value. The third, `WIDE_NEG_FLOOR`, is decided by the spec; its value stands in
Machine/Wide.lean (`wideNegFloor`).
-/

namespace Sys2Proof

/-- The tie rule `TIE` of spec/00_scope.md R9: what rounding does with an exact half. Round-half-up is not admitted
(spec/90_conflicts.md C1, spec/42_arithmetic_laws.md R90). -/
inductive Tie where
  /-- `HALF_AWAY`: an exact half goes away from zero. -/
  | halfAway
  /-- `HALF_EVEN`: an exact half goes to the even neighbour. -/
  | halfEven
  deriving DecidableEq, Repr, Inhabited

/-- The parameter `WIDE_NEG_FLOOR` of spec/00_scope.md R11: what the wide path returns when the true rounded result is
`-32768` or less. -/
inductive NegFloor where
  /-- `SYMMETRIC`: `-32767` for every such pair (the decision of the spec, spec/92_eei_decisions.md D8). -/
  | symmetric
  /-- `POINTWISE`: `-32768`, except for the two pairs of `1024` and `-32768`, which give `-32767`. -/
  | pointwise
  deriving DecidableEq, Repr, Inhabited

/-- `TIE` of this unit (spec/00_scope.md R9, OPEN in spec/92_eei_decisions.md D6): one value for both paths and both
oracles, not known to any proof. Assumption log, entry 3. -/
opaque Config.tie : Tie

/-- `NARROW_OOC_RESULT` of this unit (spec/00_scope.md R10, OPEN in spec/92_eei_decisions.md D7): the byte the narrow path
returns for the out-of-contract pair, the same every time, not known to any proof. Assumption log, entry 4. -/
opaque Config.narrowOocResult : Byte

end Sys2Proof
end

