-- ==== Sys2Proof/Syntax.lean ====
section
/-!
DEFINITION. The instruction set (two rows, spec/30_encoding.md R52) and the notation of host programs: request words
addressed to a path (R57), assembler lines (R55) and literals (R58).
-/

namespace Sys2Proof

/-- The two independent paths of the unit (spec/00_scope.md R2, R3). A word is addressed to a path, and that alone selects
the operation (spec/30_encoding.md R50). -/
inductive Path where
  /-- The 8-bit path, divisor 128, not saturating. -/
  | narrow
  /-- The 16-bit path, divisor 1024, saturating. -/
  | wide
  deriving DecidableEq, Repr

/-- The instructions: one constructor per row of spec/opcode_table.json, each carrying the values of the two input ports
of its path (spec/30_encoding.md R48, R49). -/
inductive Instr where
  /-- `NARROW`: the pair on ports `na`, `nb`. -/
  | narrow (a b : Byte)
  /-- `WIDE`: the pair on ports `wa`, `wb`. -/
  | wide (a b : Half)
  deriving DecidableEq, Repr

/-- The path an instruction is performed on. -/
def Instr.path : Instr → Path
  | .narrow _ _ => .narrow
  | .wide _ _ => .wide

/-- The value of a path's output port (spec/30_encoding.md R48, R49), which is also what a host variable holds: 8 bits if
a `NARROW` line wrote it, 16 bits if a `WIDE` line wrote it (R55). -/
inductive Response where
  | narrow (r : Byte)
  | wide (r : Half)
  deriving DecidableEq, Repr

/-- The path a response came from. -/
def Response.path : Response → Path
  | .narrow _ => .narrow
  | .wide _ => .wide

/-- The response word of a listing: the port value read as a number (spec/30_encoding.md R57). -/
def Response.word : Response → Nat
  | .narrow r => r.toNat
  | .wide r => r.toNat

/-- A host variable's name, by number (spec/30_encoding.md R55). -/
abbrev HostVar := Nat

/-- A literal of the assembler notation (spec/30_encoding.md R58). -/
inductive Literal where
  /-- A decimal integer with an optional minus sign. -/
  | dec (n : Int)
  /-- A hexadecimal bit pattern. -/
  | hex (v : Nat)
  /-- `MIN`, `-32768`, on the wide path only. -/
  | wideMin
  /-- `MAX`, `32767`, on the wide path only. -/
  | wideMax
  deriving DecidableEq, Repr

/-- An operand of an assembler line: a literal or a host variable (spec/30_encoding.md R55). -/
inductive Operand where
  | lit (l : Literal)
  | var (v : HostVar)
  deriving DecidableEq, Repr

/-- An assembler line `NARROW d, x, y` or `WIDE d, x, y` (spec/30_encoding.md R55). -/
structure Line where
  path : Path
  d : HostVar
  x : Operand
  y : Operand
  deriving DecidableEq, Repr

/-- What the host performs next: a request word of a listing addressed to a path, which writes no host variable
(spec/30_encoding.md R57), or an assembler line (R55). -/
inductive Command where
  | request (p : Path) (word : Nat)
  | line (l : Line)
  deriving DecidableEq, Repr

/-- A listed operation `<path> <request hex> -> <response hex>` (spec/30_encoding.md R57). -/
structure Listing where
  path : Path
  request : Nat
  response : Nat
  deriving DecidableEq, Repr

end Sys2Proof
end

