-- ==== Sys2Proof/WellFormed.lean ====
section
/-!
DEFINITION. What is well formed. Every instruction is (spec/30_encoding.md R47, R53: no operand pattern and no request word
is reserved). A host program can be wrong in the ways R55 and R58 name: a literal that no port of the path can carry, a host
variable read before a line wrote it, a host variable of the other path.
-/

namespace Sys2Proof

/-- Width of a path's operands and result in bits (spec/00_scope.md R8). -/
def Path.width : Path → Nat
  | .narrow => 8
  | .wide => 16

/-- Width of a path's request word in bits (spec/30_encoding.md R48, R49). -/
def Path.requestBits : Path → Nat
  | .narrow => 16
  | .wide => 32

/-- Least operand of a path (spec/00_scope.md R8). -/
def Path.least : Path → Int
  | .narrow => -128
  | .wide => -32768

/-- Greatest operand of a path (spec/00_scope.md R8). -/
def Path.greatest : Path → Int
  | .narrow => 127
  | .wide => 32767

/-- Every instruction is well formed: every bit pattern is a legal operand (spec/30_encoding.md R47). -/
def Instr.wf : Instr → Bool
  | .narrow _ _ => true
  | .wide _ _ => true

/-- A literal a port of the path can carry (spec/30_encoding.md R58). -/
def Literal.wf (p : Path) : Literal → Bool
  | .dec n => decide (p.least ≤ n) && decide (n ≤ p.greatest)
  | .hex v => decide (v < 2 ^ p.width)
  | .wideMin => p == .wide
  | .wideMax => p == .wide

/-- Which path wrote each host variable so far, the latest line first. -/
abbrev VarTypes := List (HostVar × Path)

/-- An operand that the path can take, given the host variables written so far (spec/30_encoding.md R55). -/
def Operand.wf (written : VarTypes) (p : Path) : Operand → Bool
  | .lit l => l.wf p
  | .var v => written.lookup v == some p

/-- A line whose two operands its path can take. -/
def Line.wf (written : VarTypes) (l : Line) : Bool :=
  l.x.wf written l.path && l.y.wf written l.path

/-- A command the host can perform: a request word that fits its format, or a well-formed line. -/
def Command.wf (written : VarTypes) : Command → Bool
  | .request p word => decide (word < 2 ^ p.requestBits)
  | .line l => l.wf written

/-- The host variables written after a command. -/
def Command.written (written : VarTypes) : Command → VarTypes
  | .request _ _ => written
  | .line l => (l.d, l.path) :: written

/-- A program run top to bottom, each line reading only what an earlier line of the same path wrote
(spec/30_encoding.md R55). -/
def programWf (written : VarTypes) : List Command → Bool
  | [] => true
  | c :: rest => c.wf written && programWf (c.written written) rest

end Sys2Proof
end

