-- ==== Sys2Proof/Decode.lean ====
section
/-!
DEFINITION. The decoder of request words and, after it, the encoder (spec/30_encoding.md R48 to R53). There is no opcode
field: the path a word is addressed to selects the format (R50), and every word of the format's width is an operation (R53).
-/

namespace Sys2Proof

/-- `v[lo + len - 1 : lo]`, the slice of `len` bits whose least significant bit is bit `lo` (spec/00_scope.md R13). -/
def slice {n : Nat} (v : BitVec n) (lo len : Nat) : BitVec len := v.extractLsb' lo len

/-- Concatenation, the first argument in the more significant bits (spec/00_scope.md R13). -/
def concat {m n : Nat} (x : BitVec m) (y : BitVec n) : BitVec (m + n) := x ++ y

/-- Why a word is no request word. -/
inductive DecodeError where
  /-- The word has more bits than the format of the path it is addressed to (spec/30_encoding.md R50: a 16-bit request
  word can only be format N and a 32-bit one only format W). It is an error of the listing; safe, the unit is not
  reached. -/
  | wordTooWide (p : Path) (word : Nat)
  deriving DecidableEq, Repr

/-- Format N (spec/30_encoding.md R48, R51): `a = request[15:8]`, `b = request[7:0]`. -/
def decodeNarrow (request : BitVec 16) : Instr :=
  .narrow (slice request 8 8) (slice request 0 8)

/-- Format W (spec/30_encoding.md R49, R51): `a = request[31:16]`, `b = request[15:0]`. -/
def decodeWide (request : BitVec 32) : Instr :=
  .wide (slice request 16 16) (slice request 0 16)

/-- The instruction a request word addressed to path `p` stands for (spec/30_encoding.md R50, R53). -/
def decode (p : Path) (word : Nat) : Except DecodeError Instr :=
  if word < 2 ^ p.requestBits then
    match p with
    | .narrow => .ok (decodeNarrow (BitVec.ofNat 16 word))
    | .wide => .ok (decodeWide (BitVec.ofNat 32 word))
  else .error (.wordTooWide p word)

/-- The path whose request words have this many bits (spec/30_encoding.md R50). -/
def pathOfLength (nbits : Nat) : Option Path :=
  if nbits = 16 then some .narrow else if nbits = 32 then some .wide else none

/-- The instruction of a word of the opcode table, bit 0 its least significant bit. -/
def decodeTableWord (nbits w : Nat) : Option Instr :=
  match pathOfLength nbits with
  | none => none
  | some p =>
    match decode p w with
    | .ok i => some i
    | .error _ => none

/-- The request word of an instruction, `{a, b}` (spec/30_encoding.md R48, R49). -/
def encode : Instr → Nat
  | .narrow a b => (concat a b).toNat
  | .wide a b => (concat a b).toNat

end Sys2Proof
end

