-- ==== Sys2Proof/Machine/State.lean ====
section
/-!
DEFINITION. The state of the model: the values on the unit's six ports and what the host is doing. The unit itself holds
nothing between operations (spec/10_state.md R21 to R26): no field below is a register of the unit. Assumption log,
entries 1, 2, 6 and 8.
-/

namespace Sys2Proof.Machine

/-- Faults of the unit: none. "No error type exists" (spec/60_exceptions.md R105 to R107, spec/40_narrow_path.md R62), so
the type has no constructor. -/
inductive Fault where
  deriving DecidableEq, Repr

/-- Why the host performs no operation. No constructor but the first is about an instruction of the unit: the others are
errors of the host's program, which spec/30_encoding.md R55 and R58 call so. -/
inductive Refusal where
  /-- Raised by an arm of `exec` whose instruction has no meaning yet; safe. No arm of this model raises it. -/
  | notModelled (mnemonic : String)
  /-- Raised by the fetch for a listed word that is no request word of its path; safe. -/
  | undecodable (e : DecodeError)
  /-- Raised by the fetch for a literal that no port of the path can carry (spec/30_encoding.md R58); safe. -/
  | literalOutOfDomain (p : Path) (l : Literal)
  /-- Raised by the fetch for a host variable that no earlier line wrote (spec/30_encoding.md R55); safe. -/
  | hostVariableUnwritten (v : HostVar)
  /-- Raised by the fetch for a host variable that a line of the other path wrote: there is no conversion between widths
  (spec/30_encoding.md R55, spec/20_memory.md R36); safe. -/
  | hostVariableOfOtherPath (v : HostVar)
  deriving DecidableEq, Repr

/-- The host variables `h[name]`, names strictly rising (spec/30_encoding.md R55). -/
abbrev Vars := List (HostVar × Response)

/-- The ports of spec/10_state.md R27 and the host beside them. -/
structure State where
  /-- Input port `na[7:0]`: first narrow operand. -/
  na : Byte
  /-- Input port `nb[7:0]`: second narrow operand. -/
  nb : Byte
  /-- Output port `nr[7:0]`: narrow result. -/
  nr : Byte
  /-- Input port `wa[15:0]`: first wide operand. -/
  wa : Half
  /-- Input port `wb[15:0]`: second wide operand. -/
  wb : Half
  /-- Output port `wr[15:0]`: wide result. -/
  wr : Half
  /-- The MODEL's own: what the host has still to perform, next one first (spec/30_encoding.md R55). -/
  pending : List Command
  /-- The MODEL's own: the host variables (spec/30_encoding.md R55). They belong to the host. -/
  vars : Vars
  deriving DecidableEq, Repr

/-- The moment before the first operation. The unit has no reset state (spec/10_state.md R30, spec/70_reset_and_hazards.md
R118). The operand ports carry zero, a value the spec does not give (DESIGN CHOICE, assumption log entry 2), the result
ports what R31 then gives, and the host has nothing to do and no variable. -/
def State.reset : State where
  na := 0
  nb := 0
  nr := 0
  wa := 0
  wb := 0
  wr := 0
  pending := []
  vars := []

end Sys2Proof.Machine
end

