-- ==== Sys2Proof/Machine/Operands.lean ====
section
/-!
DEFINITION. Operand forms: the signed reading of a port value and its inverse (spec/00_scope.md R14), literals
(spec/30_encoding.md R58) and host variables (R55) as operands of a line.
-/

namespace Sys2Proof.Machine

/-- `sint_N(v)`, the integer an `N`-bit vector denotes in two's complement (spec/00_scope.md R14). -/
def sint {n : Nat} (v : BitVec n) : Int := v.toInt

/-- `bits_N(n)`, the `N`-bit vector of an integer, modulo `2^N` (spec/00_scope.md R14). -/
def bits (n : Nat) (i : Int) : BitVec n := BitVec.ofInt n i

/-- `sext_N(v)`: extension by copies of the top bit (spec/00_scope.md R14). -/
def sext {m : Nat} (n : Nat) (v : BitVec m) : BitVec n := v.signExtend n

/-- `zext_N(v)`: extension by zeros (spec/00_scope.md R14). -/
def zext {m : Nat} (n : Nat) (v : BitVec m) : BitVec n := v.zeroExtend n

/-- The magnitude `|a|` of an operand as an unsigned vector of the same width: it fits, also at the least operand
(spec/42_arithmetic_laws.md R98, R99). -/
def magnitude {n : Nat} (v : BitVec n) : BitVec n := if v.msb then -v else v

/-- The bit pattern of a literal on a port of `n` bits (spec/30_encoding.md R58). -/
def literalBits (n : Nat) : Literal → BitVec n
  | .dec i => bits n i
  | .hex v => BitVec.ofNat n v
  | .wideMin => bits n (-32768)
  | .wideMax => bits n 32767

/-- An operand of a `NARROW` line: the port value, or why the host has none (spec/30_encoding.md R55, R58). -/
def narrowOperand (vars : Vars) : Operand → Except Refusal Byte
  | .lit l => if l.wf .narrow then .ok (literalBits 8 l) else .error (.literalOutOfDomain .narrow l)
  | .var v =>
    match vars.lookup v with
    | none => .error (.hostVariableUnwritten v)
    | some (.narrow r) => .ok r
    | some (.wide _) => .error (.hostVariableOfOtherPath v)

/-- An operand of a `WIDE` line: the port value, or why the host has none (spec/30_encoding.md R55, R58). -/
def wideOperand (vars : Vars) : Operand → Except Refusal Half
  | .lit l => if l.wf .wide then .ok (literalBits 16 l) else .error (.literalOutOfDomain .wide l)
  | .var v =>
    match vars.lookup v with
    | none => .error (.hostVariableUnwritten v)
    | some (.wide r) => .ok r
    | some (.narrow _) => .error (.hostVariableOfOtherPath v)

end Sys2Proof.Machine
end

