-- ==== Sys2Proof/Machine/Ops.lean ====
section
/-!
DEFINITION. The shared operations: rounding division (spec/00_scope.md R16), clamp (R17), the ports (spec/10_state.md R27,
R28) and the host variables (spec/30_encoding.md R55). There is no exception to take and none to return from
(spec/60_exceptions.md R105, R110, R111), so no operation for either stands here.
-/

namespace Sys2Proof.Machine

/-- `s` of the narrow path: `128 = 2^7` (spec/00_scope.md R8). -/
def narrowShift : Nat := 7

/-- `s` of the wide path: `1024 = 2^10` (spec/00_scope.md R8). -/
def wideShift : Nat := 10

/-- `MIN` and `MAX` of the wide path (spec/00_scope.md R20). -/
def wideMIN : Int := -32768

def wideMAX : Int := 32767

/-- `P div K` for `K = 2^s`, the floor of the quotient (spec/00_scope.md R15). -/
def divK (P : Int) (s : Nat) : Int := P / 2 ^ s

/-- `P mod K` for `K = 2^s`, from `0` to `K - 1` also for negative `P` (spec/00_scope.md R15). -/
def modK (P : Int) (s : Nat) : Int := P % 2 ^ s

/-- `RoundDiv(P, s, TIE)` for `s ≥ 1`: the integer nearest to `P / 2^s`, an exact half as `TIE` says
(spec/00_scope.md R16). -/
def roundDiv (P : Int) (s : Nat) (tie : Tie) : Int :=
  let q := divK P s
  let r := modK P s
  let H : Int := 2 ^ (s - 1)
  if r < H then q
  else if H < r then q + 1
  else
    match tie with
    | .halfAway => if 0 ≤ P then q + 1 else q
    | .halfEven => if q % 2 = 0 then q else q + 1

/-- `Clamp(t, lo, hi)` (spec/00_scope.md R17). -/
def clamp (t lo hi : Int) : Int := if t < lo then lo else if hi < t then hi else t

/-- The host presents an operand pair on the narrow path's input ports (spec/10_state.md R28). -/
def State.presentNarrow (s : State) (a b : Byte) : State := { s with na := a, nb := b }

/-- The host presents an operand pair on the wide path's input ports (spec/10_state.md R28). -/
def State.presentWide (s : State) (a b : Half) : State := { s with wa := a, wb := b }

/-- `nr <- v`: the narrow output port carries `v` (spec/00_scope.md R18). -/
def State.driveNr (s : State) (v : Byte) : State := { s with nr := v }

/-- `wr <- v`: the wide output port carries `v` (spec/00_scope.md R18). -/
def State.driveWr (s : State) (v : Half) : State := { s with wr := v }

/-- What the host reads on a path's output port; reading changes nothing (spec/20_memory.md R36). -/
def State.response (s : State) : Path → Response
  | .narrow => .narrow s.nr
  | .wide => .wide s.wr

/-- `h[d] <- v`, keeping names strictly rising (spec/30_encoding.md R55). -/
def setVar (d : HostVar) (v : Response) : Vars → Vars
  | [] => [(d, v)]
  | (e, w) :: rest =>
    if d < e then (d, v) :: (e, w) :: rest
    else if d = e then (d, v) :: rest
    else (e, w) :: setVar d v rest

/-- The canonical form of the host variables: names strictly rising. -/
def varsCanonical : Vars → Bool
  | [] => true
  | [_] => true
  | (d, _) :: (e, w) :: rest => decide (d < e) && varsCanonical ((e, w) :: rest)

/-- The host takes the result of a path's output port, into host variable `dest` if the line named one
(spec/30_encoding.md R55). -/
def State.takeResult (s : State) (p : Path) : Option HostVar → State
  | none => s
  | some d => { s with vars := setVar d (s.response p) s.vars }

end Sys2Proof.Machine
end

