-- ==== Sys2Proof/Machine/Flags.lean ====
section
/-!
DEFINITION. The unit has no flag and no status output (spec/10_state.md R24). What stands here are the internal conditions
the spec names without giving them a port: the two overflow predicates of the wide path (spec/41_wide_path.md R76) and the
exact half (spec/40_narrow_path.md R68, spec/41_wide_path.md R81).
-/

namespace Sys2Proof.Machine

/-- The true result `t = RoundDiv(a * b, 7, TIE)` of a narrow pair (spec/00_scope.md R20). -/
def narrowTrue (tie : Tie) (a b : Int) : Int := roundDiv (a * b) narrowShift tie

/-- The true result `t = RoundDiv(a * b, 10, TIE)` of a wide pair (spec/00_scope.md R20). -/
def wideTrue (tie : Tie) (a b : Int) : Int := roundDiv (a * b) wideShift tie

/-- `ovf_pos(a, b)`: `t > 32767` (spec/41_wide_path.md R76). -/
def ovfPos (tie : Tie) (a b : Int) : Bool := decide (wideMAX < wideTrue tie a b)

/-- `ovf_neg(a, b)`: `t <= -32768`, which includes the representable `-32768` (spec/41_wide_path.md R76). -/
def ovfNeg (tie : Tie) (a b : Int) : Bool := decide (wideTrue tie a b ≤ wideMIN)

/-- The pair lies exactly half-way between two integers: `(a * b) mod K = K / 2` (spec/00_scope.md R20). -/
def exactHalf (s : Nat) (a b : Int) : Bool := decide (modK (a * b) s = 2 ^ (s - 1))

end Sys2Proof.Machine
end

