-- ==== Sys2Proof/Machine/Narrow.lean ====
section
/-!
DEFINITION. `NARROW` (spec/40_narrow_path.md R59): the 8-bit path, divisor 128, not saturating.
-/

namespace Sys2Proof.Machine

/-- The one operand pair outside the narrow contract, `(-128, -128)` (spec/40_narrow_path.md R61). -/
def outOfContract (a b : Int) : Bool := decide (a = -128 ∧ b = -128)

/-- The narrow path as a function of its ports, for any value of the two parameters it depends on
(spec/40_narrow_path.md R59; R62 for the out-of-contract pair). -/
def narrowResult (tie : Tie) (ooc : Byte) (na nb : Byte) : Byte :=
  let a := sint na
  let b := sint nb
  if outOfContract a b then ooc else bits 8 (narrowTrue tie a b)

/-- `NARROW`: the pair is presented on `na`, `nb` and the result stands on `nr`. No flag, no exception, no other state
(spec/40_narrow_path.md R59). -/
def execNarrow (a b : Byte) (s : State) : Host.Outcome State Fault Refusal :=
  let u := s.presentNarrow a b
  .next (u.driveNr (narrowResult Config.tie Config.narrowOocResult u.na u.nb))

end Sys2Proof.Machine
end

