-- ==== Sys2Proof/Machine/Wide.lean ====
section
/-!
DEFINITION. `WIDE` (spec/41_wide_path.md R69): the 16-bit path, divisor 1024, saturating.
-/

namespace Sys2Proof.Machine

/-- `WIDE_NEG_FLOOR` of this unit: `SYMMETRIC`, as spec/41_wide_path.md R73, spec/90_conflicts.md C3 and
spec/92_eei_decisions.md D8 decide a contradiction of the source. Assumption log, entry 5. -/
def wideNegFloor : NegFloor := .symmetric

/-- The pair `{1024, -32768}` in either order (spec/41_wide_path.md R69, R74). -/
def pinnedPair (a b : Int) : Bool :=
  decide (a = 1024 ∧ b = -32768) || decide (a = -32768 ∧ b = 1024)

/-- `WideFloor(a, b)`, the result where the true result is `-32768` or less (spec/41_wide_path.md R69, R73, R74). -/
def wideFloor (floor : NegFloor) (a b : Int) : Int :=
  match floor with
  | .symmetric => -32767
  | .pointwise => if pinnedPair a b then -32767 else -32768

/-- The wide path as a function of its ports, for any value of the two parameters it depends on
(spec/41_wide_path.md R69, R71 to R73). -/
def wideResult (tie : Tie) (floor : NegFloor) (wa wb : Half) : Half :=
  let a := sint wa
  let b := sint wb
  if ovfPos tie a b then bits 16 wideMAX
  else if ovfNeg tie a b then bits 16 (wideFloor floor a b)
  else bits 16 (wideTrue tie a b)

/-- `WIDE`: the pair is presented on `wa`, `wb` and the result stands on `wr`. No flag, no exception, no other state
(spec/41_wide_path.md R69, R78). -/
def execWide (a b : Half) (s : State) : Host.Outcome State Fault Refusal :=
  let u := s.presentWide a b
  .next (u.driveWr (wideResult Config.tie wideNegFloor u.wa u.wb))

end Sys2Proof.Machine
end

