-- ==== Sys2Proof/Machine/Dispatch.lean ====
section
/-!
DEFINITION. The meaning of each instruction, one arm per constructor.
-/

namespace Sys2Proof.Machine

def exec (i : Instr) (s : State) : Host.Outcome State Fault Refusal :=
  match i with
  | .narrow a b => Sys2Proof.Machine.execNarrow a b s
  | .wide a b => Sys2Proof.Machine.execWide a b s

end Sys2Proof.Machine
end

