-- ==== Sys2Proof/Machine/Issue.lean ====
section
/-!
DEFINITION. How the host comes to its next operation: it takes the next command of its program, resolves a line's operands
(spec/30_encoding.md R55, R58), forms the request word (R48, R49) and decodes it. The unit fetches nothing
(spec/10_state.md R23): this is the host's doing.
-/

namespace Sys2Proof.Machine

/-- What the host does next. -/
inductive Fetched where
  /-- It presents nothing. -/
  | idle
  /-- Its program is in error and it presents nothing. -/
  | refused (r : Refusal)
  /-- It presents the pair of `i`, and writes the result to `dest` if its line named a host variable. -/
  | op (i : Instr) (dest : Option HostVar)
  deriving DecidableEq, Repr

/-- The request word of a line, first operand resolved first (spec/30_encoding.md R48, R49, R55). -/
def lineRequest (vars : Vars) (l : Line) : Except Refusal Nat :=
  match l.path with
  | .narrow =>
    match narrowOperand vars l.x with
    | .error r => .error r
    | .ok a =>
      match narrowOperand vars l.y with
      | .error r => .error r
      | .ok b => .ok (concat a b).toNat
  | .wide =>
    match wideOperand vars l.x with
    | .error r => .error r
    | .ok a =>
      match wideOperand vars l.y with
      | .error r => .error r
      | .ok b => .ok (concat a b).toNat

/-- The operation of a request word addressed to path `p`. -/
def fetchRequest (p : Path) (word : Nat) (dest : Option HostVar) : Fetched :=
  match decode p word with
  | .ok i => .op i dest
  | .error e => .refused (.undecodable e)

/-- The operation of a command. -/
def fetchCommand (vars : Vars) : Command → Fetched
  | .request p word => fetchRequest p word none
  | .line l =>
    match lineRequest vars l with
    | .ok word => fetchRequest l.path word (some l.d)
    | .error r => .refused r

/-- The host's next operation: which one happens, and when, it decides alone (spec/10_state.md R23). -/
def fetch (s : State) : Fetched :=
  match s.pending with
  | [] => .idle
  | c :: _ => fetchCommand s.vars c

/-- The host moves on to the command after the next one. -/
def State.advance (s : State) : State := { s with pending := s.pending.tail }

/-- The host's program with a request word of the opcode table put before everything else. A length that is no format's
leaves it as it is: no path takes such a word (spec/30_encoding.md R50). -/
def placeTableWord (nbits w : Nat) (pending : List Command) : List Command :=
  match pathOfLength nbits with
  | some p => .request p w :: pending
  | none => pending

end Sys2Proof.Machine
end

