-- ==== Sys2Proof/Machine/Step.lean ====
section
/-!
DEFINITION. One step: the host performs its next operation, one atomic step from an operand pair to a result
(spec/10_state.md R28, spec/70_reset_and_hazards.md R123, R125).
-/

namespace Sys2Proof.Machine

/-- One operation of the host on the unit, and the taking of its result. With nothing to do the host presents nothing and
nothing changes (assumption log, entry 7). -/
def step (s : State) : Host.Outcome State Fault Refusal :=
  match fetch s with
  | .idle => .next s
  | .refused r => .refused r
  | .op i dest =>
    match exec i s.advance with
    | .next t => .next (t.takeResult i.path dest)
    | .fault r => .fault r
    | .refused r => .refused r

/-- The state whose next operation is the one of the table word `w` of `nbits` bits (assumption log, entry 6). -/
def State.withFetchWord (s : State) (nbits w : Nat) : State :=
  { s with pending := placeTableWord nbits w s.pending }

end Sys2Proof.Machine
end

