-- ==== Sys2Proof/Machine/Datapath.lean ====
section
/-!
DEFINITION. The two native-width datapaths the spec gives as an illustration of its constraint that nothing wider than the
operand width is computed (spec/42_arithmetic_laws.md R97 to R99). They are informative: no instruction's meaning uses them.
Every quantity is an unsigned vector of the path's width, and the wide one has a one-bit overflow flag beside it.
-/

namespace Sys2Proof.Machine

/-- Quotient and remainder so far: `sum = q * 128 + r` (spec/42_arithmetic_laws.md R98). -/
structure NarrowSum where
  q : Byte
  r : Byte
  deriving DecidableEq, Repr

/-- Adds `ma * 2^i`, as `tq * 128 + tr` (spec/42_arithmetic_laws.md R98, the body of the loop). -/
def narrowAdd (ma : Byte) (i : Nat) (u : NarrowSum) : NarrowSum :=
  let tq : Byte := if i = 7 then ma else ma >>> (7 - i)
  let tr : Byte := if i = 7 then 0 else (ma <<< i) &&& 0x7F#8
  let q := u.q + tq
  let r := u.r + tr
  if 128#8 ≤ r then { q := q + 1, r := r - 128#8 } else { q := q, r := r }

/-- The loop of spec/42_arithmetic_laws.md R98 over the low `k` bits of `mb`, bit `0` first. -/
def narrowLoop (ma mb : Byte) : Nat → NarrowSum
  | 0 => { q := 0, r := 0 }
  | k + 1 => if mb.getLsbD k then narrowAdd ma k (narrowLoop ma mb k) else narrowLoop ma mb k

/-- The signs differ (spec/42_arithmetic_laws.md R98, R99). -/
def signsDiffer {n : Nat} (a b : BitVec n) : Bool := a.msb != b.msb

/-- Whether an exact half rounds up in magnitude (spec/42_arithmetic_laws.md R98, R99: `TIE = HALF_AWAY or q[0] = 1`). -/
def halfUp {n : Nat} (tie : Tie) (q : BitVec n) : Bool :=
  match tie with
  | .halfAway => true
  | .halfEven => q.getLsbD 0

/-- `m`, the rounded magnitude of the narrow datapath (spec/42_arithmetic_laws.md R98). -/
def narrowMagnitude (tie : Tie) (na nb : Byte) : Byte :=
  let u := narrowLoop (magnitude na) (magnitude nb) 8
  if decide (64#8 < u.r) || (decide (u.r = 64#8) && halfUp tie u.q) then u.q + 1 else u.q

/-- The narrow datapath (spec/42_arithmetic_laws.md R98). DESIGN CHOICE of the model, assumption log entry 19: for the pair
`(-128, -128)` the last line passes the byte `m = 128` on as it is, so `0x80` comes out; R98 says that what comes out there
depends on how the last line is built. It is no result of `NARROW`, whose byte for that pair is `Config.narrowOocResult`. -/
def narrowDatapath (tie : Tie) (na nb : Byte) : Byte :=
  let m := narrowMagnitude tie na nb
  if signsDiffer na nb then -m else m

/-- Quotient, remainder and overflow so far: `sum = q * 1024 + r` unless `ovf` (spec/42_arithmetic_laws.md R99). -/
structure WideSum where
  q : Half
  r : Half
  ovf : Bool
  deriving DecidableEq, Repr

/-- A 16-bit addition and its carry out of bit 15. -/
def addCarry (x y : Half) : Half × Bool := (x + y, decide (x + y < x))

/-- Adds `ma * 2^i`, as `tq * 1024 + tr` (spec/42_arithmetic_laws.md R99, the body of the loop). -/
def wideAdd (ma : Half) (i : Nat) (u : WideSum) : WideSum :=
  let tq : Half := if 10 ≤ i then ma <<< (i - 10) else ma >>> (10 - i)
  let tr : Half := if 10 ≤ i then 0 else (ma <<< i) &&& 0x03FF#16
  let lost : Bool := decide (10 ≤ i) && decide ((ma <<< (i - 10)) >>> (i - 10) ≠ ma)
  let (q, c) := addCarry u.q tq
  let r := u.r + tr
  if 1024#16 ≤ r then
    let (q', c') := addCarry q 1
    { q := q', r := r - 1024#16, ovf := u.ovf || lost || c || c' }
  else { q := q, r := r, ovf := u.ovf || lost || c }

/-- The loop of spec/42_arithmetic_laws.md R99 over the low `k` bits of `mb`, bit `0` first. -/
def wideLoop (ma mb : Half) : Nat → WideSum
  | 0 => { q := 0, r := 0, ovf := false }
  | k + 1 => if mb.getLsbD k then wideAdd ma k (wideLoop ma mb k) else wideLoop ma mb k

/-- The rounded quotient and the overflow flag after rounding (spec/42_arithmetic_laws.md R99). -/
def wideRounded (tie : Tie) (wa wb : Half) : Half × Bool :=
  let u := wideLoop (magnitude wa) (magnitude wb) 16
  if decide (512#16 < u.r) || (decide (u.r = 512#16) && halfUp tie u.q) then
    let (q, c) := addCarry u.q 1
    (q, u.ovf || c)
  else (u.q, u.ovf)

/-- The saturation test `ovf or q > 32767` (spec/42_arithmetic_laws.md R99). -/
def wideSaturates (tie : Tie) (wa wb : Half) : Bool :=
  let (q, ovf) := wideRounded tie wa wb
  ovf || decide (32767#16 < q)

/-- The wide datapath: the magnitude saturates at `32767`, then takes its sign (spec/42_arithmetic_laws.md R99). -/
def wideDatapath (tie : Tie) (wa wb : Half) : Half :=
  let q := if wideSaturates tie wa wb then 32767#16 else (wideRounded tie wa wb).1
  if signsDiffer wa wb then -q else q

end Sys2Proof.Machine
end

