-- ==== Sys2Proof/Machine/Listing.lean ====
section
/-!
DEFINITION. What an operation returns by itself, and when a listing `<path> <request> -> <response>` is right
(spec/30_encoding.md R57).
-/

namespace Sys2Proof.Machine

/-- The response of an instruction performed by itself, on a unit nothing has used. -/
def respond (i : Instr) : Option Response :=
  match exec i State.reset with
  | .next t => some (t.response i.path)
  | .fault _ => none
  | .refused _ => none

/-- The responses of a list of operations performed in order from state `s`, up to the first that gives none. -/
def responses : List Instr → State → List Response
  | [], _ => []
  | i :: rest, s =>
    match exec i s with
    | .next t => t.response i.path :: responses rest t
    | .fault _ => []
    | .refused _ => []

/-- A listing whose response word is the one the unit gives (spec/30_encoding.md R57). -/
def listingAgrees (l : Listing) : Bool :=
  match decode l.path l.request with
  | .error _ => false
  | .ok i =>
    match respond i with
    | some r => r.path == l.path && r.word == l.response
    | none => false

end Sys2Proof.Machine
end

