-- ==== Sys2Proof/Machine/Oracle.lean ====
section
/-!
DEFINITION. The two reference oracles (spec/42_arithmetic_laws.md R83, R84): definitions the operations are held to, not
operations of the unit (spec/00_scope.md R6). They work on integers and share `RoundDiv` and `TIE` with the paths.
-/

namespace Sys2Proof.Machine

/-- `narrow_reference(a, b)`: the true result where it is in `[-128, 127]`; elsewhere the oracle's value is not given. It
does not clamp (spec/42_arithmetic_laws.md R83). -/
def narrowReference (tie : Tie) (a b : Int) : Option Int :=
  let t := narrowTrue tie a b
  if -128 ≤ t ∧ t ≤ 127 then some t else none

/-- `wide_reference(a, b)`: the true result clamped to the range of the unit's negative floor, with the two pinned pairs
of `POINTWISE` (spec/42_arithmetic_laws.md R84, spec/41_wide_path.md R73, R74). -/
def wideReference (tie : Tie) (floor : NegFloor) (a b : Int) : Int :=
  let t := wideTrue tie a b
  match floor with
  | .symmetric => clamp t (wideMIN + 1) wideMAX
  | .pointwise => if pinnedPair a b then wideMIN + 1 else clamp t wideMIN wideMAX

end Sys2Proof.Machine
end

