-- ==== Sys2Proof/Safety.lean ====
section
/-!
DEFINITION. The terms in which claims speak of good states and safe runs.
-/

namespace Sys2Proof.Machine

/-- Each output port carries the function of its own path's input ports (spec/10_state.md R31, R29). -/
abbrev State.PortsAgree (s : State) : Prop :=
  s.nr = narrowResult Config.tie Config.narrowOocResult s.na s.nb ∧ s.wr = wideResult Config.tie wideNegFloor s.wa s.wb

/-- The host variables are in canonical form. -/
abbrev State.VarsCanonical (s : State) : Prop := varsCanonical s.vars = true

/-- Which path wrote each host variable, as the variables themselves tell (spec/30_encoding.md R55). -/
def varTypes (vars : Vars) : VarTypes := vars.map fun e => (e.1, e.2.path)

/-- What the host has still to do is a well-formed program, given the variables already written
(spec/30_encoding.md R55). -/
abbrev State.ProgramOk (s : State) : Prop := programWf (varTypes s.vars) s.pending = true

/-- `narrow(a, b)` in the function notation of spec/30_encoding.md R56, on integers, for any value of the parameters. -/
def narrowOf (tie : Tie) (ooc : Byte) (a b : Int) : Int := sint (narrowResult tie ooc (bits 8 a) (bits 8 b))

/-- `wide(a, b)` in the function notation of spec/30_encoding.md R56, on integers, for any value of the parameters. -/
def wideOf (tie : Tie) (floor : NegFloor) (a b : Int) : Int := sint (wideResult tie floor (bits 16 a) (bits 16 b))

/-- Operand `o` of a line on path `p` is an error of the program, and `r` is the reason: a literal that no port of the path can
carry (spec/30_encoding.md R58), or a host variable that no line, or a line of the other path, wrote (R55). Said from the
rules, not from the functions that resolve operands. -/
def OperandError (vars : Vars) (p : Path) (o : Operand) (r : Refusal) : Prop :=
  (∃ n : Int, o = .lit (.dec n) ∧ (n < p.least ∨ p.greatest < n) ∧ r = .literalOutOfDomain p (.dec n)) ∨
  (∃ k : Nat, o = .lit (.hex k) ∧ 2 ^ p.width ≤ k ∧ r = .literalOutOfDomain p (.hex k)) ∨
  (o = .lit .wideMin ∧ p = .narrow ∧ r = .literalOutOfDomain p .wideMin) ∨
  (o = .lit .wideMax ∧ p = .narrow ∧ r = .literalOutOfDomain p .wideMax) ∨
  (∃ x : HostVar, o = .var x ∧ vars.lookup x = none ∧ r = .hostVariableUnwritten x) ∨
  (∃ (x : HostVar) (v : Response), o = .var x ∧ vars.lookup x = some v ∧ v.path ≠ p ∧ r = .hostVariableOfOtherPath x)

/-- A wide result or host variable never holds `-32768` (spec/41_wide_path.md R73). -/
abbrev NotWideMIN (r : Response) : Prop := r ≠ .wide 0x8000#16

end Sys2Proof.Machine
end

