-- ==== Sys2Proof/Certificates/Slice0/Obligations.lean ====
section
/-!
DEFINITION. The statements for the provers, one `def Obligations.<Name> : Prop` each. A docstring names the rule of spec/
that the statement formalises; where a statement rests on a choice (of the spec, marked "decision" or "derived" there, or of
the model) it says so and names the entry of the assumption log.
-/

open Sys2Proof Sys2Proof.Machine

/-! ## Encoding -/

/-- Decoding the request word of an instruction gives it back, whatever its operands, and each request word is the encoding
of the one instruction it decodes to (spec/30_encoding.md R48, R49, R51, the word layout being decision D4 of the spec;
assumption log entry 10). -/
def Obligations.DecodeAndEncodeAreInverse : Prop :=
  (∀ i : Instr, i.wf = true →
    decode i.path (encode i) = .ok i ∧ decodeTableWord i.path.requestBits (encode i) = some i) ∧
  ∀ (p : Path) (word : Nat) (i : Instr), decode p word = .ok i → i.path = p ∧ encode i = word

/-- spec/30_encoding.md R53: every word of a format's width is a valid operation, which completes in every state, and the
word `0x8080` on the narrow path responds with `NARROW_OOC_RESULT`. -/
def Obligations.EveryRequestWordIsAnOperation : Prop :=
  (∀ (p : Path) (word : Nat), word < 2 ^ p.requestBits →
    ∃ i : Instr, decode p word = .ok i ∧ i.path = p ∧ ∀ s : State, ∃ t : State, exec i s = .next t) ∧
  ∃ i : Instr, decode .narrow 0x8080 = .ok i ∧
    ∀ s : State, ∃ t : State, exec i s = .next t ∧ t.response .narrow = .narrow Config.narrowOocResult

/-- Where the operands stand in a request word (spec/30_encoding.md R48, R49, R51, decisions D3 and D4 of the spec): `a` in
the upper half, `b` in the lower half, each read in two's complement. -/
def Obligations.RequestFieldsAreTheOperands : Prop :=
  (∀ word : Nat, word < 2 ^ 16 → ∃ a b : Byte, decode .narrow word = .ok (.narrow a b) ∧
    a.toNat = word / 2 ^ 8 ∧ b.toNat = word % 2 ^ 8 ∧
    sint a = (if word / 2 ^ 8 < 128 then (word / 2 ^ 8 : Int) else (word / 2 ^ 8 : Int) - 256) ∧
    sint b = (if word % 2 ^ 8 < 128 then (word % 2 ^ 8 : Int) else (word % 2 ^ 8 : Int) - 256)) ∧
  ∀ word : Nat, word < 2 ^ 32 → ∃ a b : Half, decode .wide word = .ok (.wide a b) ∧
    a.toNat = word / 2 ^ 16 ∧ b.toNat = word % 2 ^ 16 ∧
    sint a = (if word / 2 ^ 16 < 32768 then (word / 2 ^ 16 : Int) else (word / 2 ^ 16 : Int) - 65536) ∧
    sint b = (if word % 2 ^ 16 < 32768 then (word % 2 ^ 16 : Int) else (word % 2 ^ 16 : Int) - 65536)

/-- Words of the source's examples, written out from the listings (spec/30_encoding.md R57; spec/95_test_vectors.md S1, S2,
S4, S11), decode to the pairs they stand for. -/
def Obligations.ListedWordsDecode : Prop :=
  decode .narrow 0x3240 = .ok (.narrow 50#8 64#8) ∧
  decode .narrow 0xCE40 = .ok (.narrow (bits 8 (-50)) 64#8) ∧
  decode .wide 0x01900200 = .ok (.wide 400#16 512#16) ∧
  decode .wide 0x04008000 = .ok (.wide 1024#16 (bits 16 (-32768)))

/-- The signed reading and its inverse at any width (spec/00_scope.md R14, decision D3 of the spec): value, range, both
inverse laws, wrap-around outside the range, and the two extensions. -/
def Obligations.SignedReadingAndItsInverse : Prop :=
  ∀ n : Nat, 0 < n →
    (∀ v : BitVec n, sint v = (v.toNat : Int) - (if v.msb then (2 : Int) ^ n else 0) ∧
      -(2 : Int) ^ (n - 1) ≤ sint v ∧ sint v ≤ (2 : Int) ^ (n - 1) - 1 ∧ bits n (sint v) = v) ∧
    (∀ i : Int, -(2 : Int) ^ (n - 1) ≤ i → i ≤ (2 : Int) ^ (n - 1) - 1 → sint (bits n i) = i) ∧
    (∀ i : Int, ((bits n i).toNat : Int) = i % 2 ^ n) ∧
    ∀ (m : Nat) (v : BitVec m), m ≤ n → sint (sext n v) = sint v ∧ (zext n v).toNat = v.toNat

/-! ## Rounding -/

/-- `RoundDiv` follows its rule with floor division, and is the integer nearest to `P / 2^s` (spec/00_scope.md R16). -/
def Obligations.RoundDivIsTheNearestInteger : Prop :=
  ∀ (P : Int) (s : Nat) (tie : Tie), 1 ≤ s →
    let K : Int := 2 ^ s
    let H : Int := 2 ^ (s - 1)
    let q := Int.fdiv P K
    let r := Int.fmod P K
    let t := roundDiv P s tie
    2 * |K * t - P| ≤ K ∧
    (r < H → t = q) ∧ (H < r → t = q + 1) ∧
    (r = H → 2 * |K * t - P| = K ∧
      (tie = .halfAway → t = (if 0 ≤ P then q + 1 else q) ∧ |P| < |K * t|) ∧
      (tie = .halfEven → t = (if q % 2 = 0 then q else q + 1) ∧ t % 2 = 0))

/-- `RoundDiv` is odd in `P` under both tie rules (the derived clause of spec/00_scope.md R16). -/
def Obligations.RoundDivIsOdd : Prop :=
  ∀ (P : Int) (s : Nat) (tie : Tie), 1 ≤ s → roundDiv (-P) s tie = -roundDiv P s tie

/-- Off the exact halves the result does not depend on `TIE`. On an exact half the two rules differ by at most one, and agree
just when the even neighbour is the one farther from zero (spec/40_narrow_path.md R68, spec/41_wide_path.md R81, derived
there). -/
def Obligations.TieMattersOnlyOnExactHalves : Prop :=
  ∀ (P : Int) (s : Nat), 1 ≤ s →
    let q := divK P s
    let away := roundDiv P s .halfAway
    let even := roundDiv P s .halfEven
    (modK P s ≠ 2 ^ (s - 1) → away = even) ∧
    (modK P s = 2 ^ (s - 1) →
      (0 < P → away = q + 1) ∧ (P < 0 → away = q) ∧ (even = q ∨ even = q + 1) ∧ even % 2 = 0 ∧
      |away - even| ≤ 1 ∧ (away = even ↔ away % 2 = 0))

/-- The true result at every sign combination and at zero, and when it is zero (spec/42_arithmetic_laws.md R95,
spec/40_narrow_path.md R66, spec/41_wide_path.md R79, derived there). -/
def Obligations.SignOfTheTrueResult : Prop :=
  ∀ (a b : Int) (s : Nat) (tie : Tie), 1 ≤ s →
    let m := roundDiv (|a| * |b|) s tie
    let t := roundDiv (a * b) s tie
    0 ≤ m ∧
    (0 < a → 0 < b → t = m) ∧ (a < 0 → b < 0 → t = m) ∧ (0 < a → b < 0 → t = -m) ∧ (a < 0 → 0 < b → t = -m) ∧
    (a = 0 → t = 0) ∧ (b = 0 → t = 0) ∧
    (m = 0 ↔ |a| * |b| < 2 ^ (s - 1) ∨ (|a| * |b| = 2 ^ (s - 1) ∧ tie = .halfEven))

/-! ## The narrow path -/

/-- spec/40_narrow_path.md R59. `NARROW` completes for every pair in every state. It changes nothing but its own three
ports, which carry the pair and the result: `NARROW_OOC_RESULT` for the pair `(-128, -128)`, else the rounded product, which
fits. The worked example is the last clause. -/
def Obligations.NarrowReturnsTheRoundedProduct : Prop :=
  (∀ (a b : Byte) (s : State), ∃ v : Byte,
    exec (.narrow a b) s = .next { s with na := a, nb := b, nr := v } ∧
    -16256 ≤ sint a * sint b ∧ sint a * sint b ≤ 16384 ∧
    if sint a = -128 ∧ sint b = -128 then v = Config.narrowOocResult
    else sint v = roundDiv (sint a * sint b) 7 Config.tie ∧ -127 ≤ sint v ∧ sint v ≤ 127) ∧
  ∀ s : State, ∃ i t, decode .narrow 0x3240 = .ok i ∧ exec i s = .next t ∧ t.response .narrow = .narrow 0x19#8

/-- The out-of-contract set is exactly one pair, under the unrounded and the rounded wording of the precondition and either
tie rule, with the bounds of the products that show it (spec/40_narrow_path.md R61, derived there). -/
def Obligations.OutOfContractSetIsOnePair : Prop :=
  ∀ (a b : Byte) (tie : Tie),
    let P := sint a * sint b
    (16129 < P → P = 16256 ∨ P = 16384) ∧
    (P = 16256 ↔ sint a = -128 ∧ sint b = -127 ∨ sint a = -127 ∧ sint b = -128) ∧
    (P = 16384 ↔ sint a = -128 ∧ sint b = -128) ∧
    (P = -16256 ↔ sint a = -128 ∧ sint b = 127 ∨ sint a = 127 ∧ sint b = -128) ∧
    (¬ (-128 * 128 ≤ P ∧ P ≤ 127 * 128) ↔ sint a = -128 ∧ sint b = -128) ∧
    (¬ (-128 ≤ narrowTrue tie (sint a) (sint b) ∧ narrowTrue tie (sint a) (sint b) ≤ 127) ↔
      sint a = -128 ∧ sint b = -128)

/-- For the pair `(-128, -128)` the narrow path returns the unit's one unknown byte, nothing else changes, and a later
operation returns what it always does (spec/40_narrow_path.md R62, decision D7 of the spec; assumption log entry 4). -/
def Obligations.NarrowOutOfContractIsNoFault : Prop :=
  ∀ s : State,
    exec (.narrow 0x80#8 0x80#8) s = .next { s with na := 0x80#8, nb := 0x80#8, nr := Config.narrowOocResult } ∧
    ∀ (i : Instr) (t : State), exec (.narrow 0x80#8 0x80#8) s = .next t →
      ∃ u u' : State, exec i s = .next u ∧ exec i t = .next u' ∧ u'.response i.path = u.response i.path

/-- In-contract results lie in `[-127, 127]`, each end reached by two pairs only, under either tie rule
(spec/40_narrow_path.md R64, derived there). So a pair of two such results is in contract (spec/70_reset_and_hazards.md
R124, derived there). -/
def Obligations.NarrowResultsInContractRange : Prop :=
  ∀ (tie : Tie) (ooc a b : Byte), ¬ (sint a = -128 ∧ sint b = -128) →
    let n := sint (narrowResult tie ooc a b)
    n ≤ 127 ∧ -127 ≤ n ∧
    (n = 127 ↔ sint a = -128 ∧ sint b = -127 ∨ sint a = -127 ∧ sint b = -128) ∧
    (n = -127 ↔ sint a = -128 ∧ sint b = 127 ∨ sint a = 127 ∧ sint b = -128) ∧
    ∀ c d : Byte, ¬ (sint c = -128 ∧ sint d = -128) →
      narrowReference tie n (sint (narrowResult tie ooc c d)) ≠ none

/-- The table of narrow corner cases, for every value of the parameters, and that no operand is a multiplicative one
(spec/40_narrow_path.md R67, spec/42_arithmetic_laws.md R96, derived there). -/
def Obligations.NarrowCornerCases : Prop :=
  ∀ (tie : Tie) (ooc : Byte),
    (∀ x : Int, -128 ≤ x → x ≤ 127 → narrowOf tie ooc 0 x = 0 ∧ narrowOf tie ooc x 0 = 0) ∧
    (∀ x : Int, -127 ≤ x → x ≤ 127 → narrowOf tie ooc x (-128) = -x ∧ narrowOf tie ooc (-128) x = -x) ∧
    narrowOf tie ooc (-128) (-128) = sint ooc ∧
    (∀ x : Int, -64 ≤ x → x ≤ 64 → narrowOf tie ooc x 127 = x) ∧
    narrowOf tie ooc 65 127 = 64 ∧ narrowOf tie ooc 127 127 = 126 ∧ narrowOf tie ooc (-127) (-127) = 126 ∧
    narrowOf tie ooc (-128) (-127) = 127 ∧ narrowOf tie ooc (-127) (-128) = 127 ∧
    narrowOf tie ooc (-128) 127 = -127 ∧ narrowOf tie ooc 127 (-128) = -127 ∧
    (∀ x : Int, -63 ≤ x → x ≤ 63 → narrowOf tie ooc x 1 = 0) ∧
    narrowOf tie ooc 64 1 = (if tie = .halfAway then 1 else 0) ∧
    narrowOf tie ooc (-64) 1 = (if tie = .halfAway then -1 else 0) ∧
    (∀ x : Int, 65 ≤ x → x ≤ 127 → narrowOf tie ooc x 1 = 1) ∧
    (∀ x : Int, -128 ≤ x → x ≤ -65 → narrowOf tie ooc x 1 = -1) ∧
    (∀ x : Int, -128 ≤ x → x ≤ 127 → narrowOf tie ooc x 64 = roundDiv x 1 tie ∧
      (x % 2 = 0 → 2 * narrowOf tie ooc x 64 = x) ∧ (x % 2 = 1 → exactHalf 7 x 64 = true)) ∧
    (∀ x : Int, -127 ≤ x → x ≤ 127 → 0 ≤ narrowOf tie ooc x x) ∧
    ∀ y : Int, -128 ≤ y → y ≤ 127 →
      ∃ x : Int, -127 ≤ x ∧ x ≤ 127 ∧ narrowOf tie ooc x y ≠ x

/-! ## The wide path -/

/-- `WIDE` completes for every pair in every state. It changes nothing but its own three ports, which carry the pair and the
true result, clamped (spec/41_wide_path.md R69). The lower bound `-32767` is decision D8 of the spec, `WIDE_NEG_FLOOR =
SYMMETRIC` (assumption log entry 5). -/
def Obligations.WideReturnsTheClampedProduct : Prop :=
  ∀ (a b : Half) (s : State), ∃ v : Half,
    exec (.wide a b) s = .next { s with wa := a, wb := b, wr := v } ∧
    let t := roundDiv (sint a * sint b) 10 Config.tie
    (32767 < t → sint v = 32767) ∧ (-32767 ≤ t → t ≤ 32767 → sint v = t) ∧ (t ≤ -32768 → sint v = -32767)

/-- The range of the wide product and of the true result, both ends reached, under either tie rule (spec/41_wide_path.md
R70, derived there). -/
def Obligations.WideTrueResultRange : Prop :=
  ∀ tie : Tie,
    (∀ a b : Half,
      -1073709056 ≤ sint a * sint b ∧ sint a * sint b ≤ 1073741824 ∧
      -1048544 ≤ wideTrue tie (sint a) (sint b) ∧ wideTrue tie (sint a) (sint b) ≤ 1048576) ∧
    wideTrue tie (-32768) (-32768) = 1048576 ∧ wideTrue tie 32767 (-32768) = -1048544

/-- spec/41_wide_path.md R71: a true result above `32767` gives `32767`, for both signs of the operands, with the rule's
examples and its least overflows. -/
def Obligations.PositiveSaturation : Prop :=
  (∀ (a b : Half) (s : State), 32767 < wideTrue Config.tie (sint a) (sint b) →
    ∃ t : State, exec (.wide a b) s = .next t ∧ t.wr = 0x7FFF#16 ∧ sint t.wr = 32767) ∧
  ∀ (tie : Tie) (floor : NegFloor),
    wideTrue tie (-32768) (-32768) = 1048576 ∧ wideOf tie floor (-32768) (-32768) = 32767 ∧
    wideOf tie floor 32767 32767 = 32767 ∧
    wideTrue tie 8000 8000 = 62500 ∧ wideOf tie floor 8000 8000 = 32767 ∧
    wideTrue tie 24576 24576 = 589824 ∧ wideOf tie floor 24576 24576 = 32767 ∧
    wideTrue tie (-32768) (-1024) = 32768 ∧ wideOf tie floor (-32768) (-1024) = 32767 ∧
    wideTrue tie 32640 1028 = 32768 ∧ wideOf tie floor 32640 1028 = 32767

/-- spec/41_wide_path.md R72: a true result from `-32767` to `32767` is returned unchanged, with the rule's examples. -/
def Obligations.InRangeResultIsReturnedUnchanged : Prop :=
  (∀ (a b : Half) (s : State),
    -32767 ≤ wideTrue Config.tie (sint a) (sint b) → wideTrue Config.tie (sint a) (sint b) ≤ 32767 →
    ∃ t : State, exec (.wide a b) s = .next t ∧ t.wr = bits 16 (wideTrue Config.tie (sint a) (sint b)) ∧
      sint t.wr = wideTrue Config.tie (sint a) (sint b)) ∧
  ∀ (tie : Tie) (floor : NegFloor),
    wideOf tie floor 32767 1024 = 32767 ∧ wideTrue tie 32767 1024 = 32767 ∧
    wideOf tie floor (-32767) 1024 = -32767 ∧ wideTrue tie (-32767) 1024 = -32767 ∧
    wideOf tie floor 400 512 = 200 ∧ wideOf tie floor (-400) 512 = -200 ∧ wideOf tie floor (-32768) 100 = -3200

/-- The negative boundary as decision D8 of the spec settles it (spec/41_wide_path.md R73, `WIDE_NEG_FLOOR = SYMMETRIC`;
assumption log entry 5): a true result of `-32768` or less gives `-32767`, and no result is `-32768`. -/
def Obligations.NegativeSaturationIsSymmetric : Prop :=
  (∀ (a b : Half) (s : State), wideTrue Config.tie (sint a) (sint b) ≤ -32768 →
    ∃ t : State, exec (.wide a b) s = .next t ∧ t.wr = 0x8001#16 ∧ sint t.wr = -32767) ∧
  ∀ (a b : Half) (s : State), ∃ t : State, exec (.wide a b) s = .next t ∧
    -32767 ≤ sint t.wr ∧ sint t.wr ≤ 32767 ∧ t.wr ≠ 0x8000#16

/-- What holds at the negative boundary under either value of `WIDE_NEG_FLOOR` (spec/41_wide_path.md R74, derived there):
only `-32768` or `-32767`, `-32767` alone for the two pinned pairs, and no difference elsewhere. -/
def Obligations.NegativeSaturationUnderEitherReading : Prop :=
  ∀ (tie : Tie) (floor : NegFloor) (a b : Half),
    let t := wideTrue tie (sint a) (sint b)
    let n := sint (wideResult tie floor a b)
    let pinned := (sint a = 1024 ∧ sint b = -32768) ∨ (sint a = -32768 ∧ sint b = 1024)
    (t ≤ -32768 → n = -32768 ∨ n = -32767) ∧
    (pinned → t = -32768 ∧ n = -32767) ∧
    (t ≤ -32768 → ¬ pinned → floor = .pointwise → n = -32768) ∧
    (-32767 ≤ t → wideResult tie .pointwise a b = wideResult tie .symmetric a b)

/-- spec/41_wide_path.md R75 and spec/42_arithmetic_laws.md R91: the results the source states as numbers, for every value of
every parameter. -/
def Obligations.PinnedPoints : Prop :=
  ∀ (tie : Tie) (floor : NegFloor),
    wideOf tie floor 32767 32767 = 32767 ∧ wideOf tie floor (-32768) (-32768) = 32767 ∧
    wideOf tie floor 1024 (-32768) = -32767 ∧ wideOf tie floor (-32768) 1024 = -32767 ∧
    wideOf tie floor 8000 8000 = 32767 ∧ wideOf tie floor 24576 24576 = 32767 ∧
    wideOf tie floor 400 512 = 200 ∧ wideOf tie floor (-400) 512 = -200 ∧ wideOf tie floor (-32768) 100 = -3200

/-- The two overflow predicates exclude each other and decide where the result is a boundary value (spec/41_wide_path.md R76,
decision D9 of the spec). The tie rule moves no pair across a boundary (R81, derived there). -/
def Obligations.TieNeverMovesASaturationBoundary : Prop :=
  ∀ (tie : Tie) (a b : Half),
    ¬ (ovfPos tie (sint a) (sint b) = true ∧ ovfNeg tie (sint a) (sint b) = true) ∧
    (ovfPos tie (sint a) (sint b) = true ↔ 32767 < wideTrue tie (sint a) (sint b)) ∧
    (ovfNeg tie (sint a) (sint b) = true ↔ wideTrue tie (sint a) (sint b) ≤ -32768) ∧
    ovfPos .halfAway (sint a) (sint b) = ovfPos .halfEven (sint a) (sint b) ∧
    ovfNeg .halfAway (sint a) (sint b) = ovfNeg .halfEven (sint a) (sint b) ∧
    (wideTrue .halfAway (sint a) (sint b) = -32768 ↔ wideTrue .halfEven (sint a) (sint b) = -32768) ∧
    ∀ floor : NegFloor,
      (ovfPos tie (sint a) (sint b) = true ∨ ovfNeg tie (sint a) (sint b) = true ∨ exactHalf 10 (sint a) (sint b) = false) →
      wideResult .halfAway floor a b = wideResult .halfEven floor a b

/-- The ten pairs whose quotient is exactly `-32768`, and their results under both values of `WIDE_NEG_FLOOR`
(spec/41_wide_path.md R82, derived there). -/
def Obligations.TenPairsReachTheMinimumExactly : Prop :=
  ∀ a b : Half,
    (sint a * sint b = -33554432 ↔
      (sint a, sint b) ∈ [((1024 : Int), (-32768 : Int)), (2048, -16384), (4096, -8192), (8192, -4096), (16384, -2048),
        (-32768, 1024), (-16384, 2048), (-8192, 4096), (-4096, 8192), (-2048, 16384)]) ∧
    (sint a * sint b = -33554432 → ∀ tie : Tie,
      sint (wideResult tie .symmetric a b) = -32767 ∧
      sint (wideResult tie .pointwise a b) =
        (if (sint a, sint b) = (1024, -32768) ∨ (sint a, sint b) = (-32768, 1024) then -32767 else -32768))

/-- The table of wide corner cases, for every value of the parameters (spec/41_wide_path.md R80, derived there); the value of
`WIDE_NEG_FLOOR` shows where the floor is reached. -/
def Obligations.WideCornerCases : Prop :=
  ∀ (tie : Tie) (floor : NegFloor),
    let low : Int := if floor = .symmetric then -32767 else -32768
    let w := wideOf tie floor
    (∀ x : Int, -32768 ≤ x → x ≤ 32767 → w 0 x = 0 ∧ w x 0 = 0) ∧
    (∀ x : Int, -32767 ≤ x → x ≤ 32767 → w x 1024 = x ∧ w x (-1024) = -x) ∧
    w (-32768) 1024 = -32767 ∧ w 1024 (-32768) = -32767 ∧ w (-32768) (-1024) = 32767 ∧
    w 2048 (-16384) = low ∧ w (-2048) 16384 = low ∧ w (-32640) 1028 = low ∧ w 32640 1028 = 32767 ∧
    w 1025 (-32736) = low ∧ w (-32768) 1023 = -32736 ∧ w (-32768) 1025 = low ∧
    w 32767 (-32768) = low ∧ w (-32768) 32767 = low ∧ w 32767 (-32767) = low ∧
    w 32767 32767 = 32767 ∧ wideTrue tie 32767 32767 = 1048512 ∧
    w (-32768) (-32768) = 32767 ∧ wideTrue tie (-32768) (-32768) = 1048576 ∧
    w 5792 5793 = 32767 ∧ wideTrue tie 5792 5793 = 32767 ∧ w 5793 5793 = 32767 ∧ wideTrue tie 5793 5793 = 32772 ∧
    w 5793 (-5793) = low ∧ w 2048 16383 = 32766 ∧ w (-2048) 16383 = -32766 ∧
    w (-32768) 1 = -32 ∧ w (-32768) (-1) = 32 ∧
    (∀ x : Int, -511 ≤ x → x ≤ 511 → w x 1 = 0) ∧
    w 512 1 = (if tie = .halfAway then 1 else 0) ∧ w (-512) 1 = (if tie = .halfAway then -1 else 0) ∧
    ∀ x : Int, -32768 ≤ x → x ≤ 32767 → w x 512 = roundDiv x 1 tie ∧
      (x % 2 = 0 → 2 * w x 512 = x) ∧ (x % 2 = 1 → exactHalf 10 x 512 = true)

/-- The wide path saturates the magnitude at `32767` and then applies the sign (spec/41_wide_path.md R79, derived there from
R73, so from decision D8; assumption log entry 5). -/
def Obligations.WideSaturatesTheMagnitude : Prop :=
  ∀ (a b : Half) (s : State),
    let m := roundDiv (|sint a| * |sint b|) 10 Config.tie
    ∃ t : State, exec (.wide a b) s = .next t ∧
      sint t.wr = if (sint a < 0 ↔ sint b < 0) then min m 32767 else -min m 32767

/-! ## Laws of both operations -/

/-- spec/42_arithmetic_laws.md R88: both operations commute, for every pair and under every value of the parameters. -/
def Obligations.OperandsCommute : Prop :=
  (∀ (tie : Tie) (ooc a b : Byte), narrowResult tie ooc a b = narrowResult tie ooc b a) ∧
  (∀ (tie : Tie) (floor : NegFloor) (a b : Half), wideResult tie floor a b = wideResult tie floor b a) ∧
  (∀ (a b : Byte) (s : State), ∃ t u : State,
    exec (.narrow a b) s = .next t ∧ exec (.narrow b a) s = .next u ∧ t.response .narrow = u.response .narrow) ∧
  ∀ (a b : Half) (s : State), ∃ t u : State,
    exec (.wide a b) s = .next t ∧ exec (.wide b a) s = .next u ∧ t.response .wide = u.response .wide

/-- spec/42_arithmetic_laws.md R89: changing the sign of either operand changes the sign of the result, (a) on the narrow
path, (b) on the wide path under `SYMMETRIC` without exception, (c) under `POINTWISE` but for the pairs that reach its
floor. -/
def Obligations.SignSymmetry : Prop :=
  (∀ (tie : Tie) (ooc a b : Byte), sint a ≠ -128 →
    sint (-a) = -sint a ∧
    sint (narrowResult tie ooc (-a) b) = -sint (narrowResult tie ooc a b) ∧
    sint (narrowResult tie ooc b (-a)) = -sint (narrowResult tie ooc b a)) ∧
  (∀ (tie : Tie) (a b : Half), sint a ≠ -32768 →
    sint (-a) = -sint a ∧
    sint (wideResult tie .symmetric (-a) b) = -sint (wideResult tie .symmetric a b) ∧
    sint (wideResult tie .symmetric b (-a)) = -sint (wideResult tie .symmetric b a)) ∧
  ∀ (tie : Tie) (a b : Half), sint a ≠ -32768 →
    let reachesFloor (x y : Half) : Prop := wideTrue tie (sint x) (sint y) ≤ -32768 ∧ ¬ pinnedPair (sint x) (sint y) = true
    let f (x y : Half) : Int := sint (wideResult tie .pointwise x y)
    (¬ reachesFloor a b → ¬ reachesFloor (-a) b → f (-a) b = -f a b) ∧
    (reachesFloor a b → f a b = -32768 ∧ f (-a) b = 32767) ∧
    (reachesFloor (-a) b → f (-a) b = -32768 ∧ f a b = 32767) ∧
    (¬ reachesFloor b a → ¬ reachesFloor b (-a) → f b (-a) = -f b a) ∧
    (reachesFloor b a → f b a = -32768 ∧ f b (-a) = 32767) ∧
    (reachesFloor b (-a) → f b (-a) = -32768 ∧ f b a = 32767)

/-- Where the narrow oracle gives a value the operation returns it (spec/42_arithmetic_laws.md R85), and the oracle gives none
exactly at `(-128, -128)`: that it answers none there is the model's, DEDUCED from R83, which says only that its value is not
given (assumption log entry 18). -/
def Obligations.NarrowMatchesItsOracle : Prop :=
  ∀ (a b : Byte) (s : State), ∃ t : State, exec (.narrow a b) s = .next t ∧
    (∀ v : Int, narrowReference Config.tie (sint a) (sint b) = some v → sint t.nr = v) ∧
    (narrowReference Config.tie (sint a) (sint b) = none ↔ sint a = -128 ∧ sint b = -128)

/-- spec/42_arithmetic_laws.md R86: the wide operation returns what its oracle returns, for every pair, with the unit's
parameters and for every value of them. -/
def Obligations.WideMatchesItsOracle : Prop :=
  (∀ (a b : Half) (s : State), ∃ t : State, exec (.wide a b) s = .next t ∧
    sint t.wr = wideReference Config.tie wideNegFloor (sint a) (sint b)) ∧
  ∀ (tie : Tie) (floor : NegFloor) (a b : Half),
    sint (wideResult tie floor a b) = wideReference tie floor (sint a) (sint b)

/-- The narrow native-width datapath computes the narrow operation for every in-contract pair and both tie rules, and for
the pair out of contract its magnitude is `128` with no sign (spec/42_arithmetic_laws.md R98, the spec's own construction;
assumption log entry 16). Of the byte that comes out there it says nothing (the model's choice, assumption log entry 19). -/
def Obligations.NarrowDatapathComputesNarrow : Prop :=
  ∀ (tie : Tie) (ooc a b : Byte),
    if sint a = -128 ∧ sint b = -128 then narrowMagnitude tie a b = 128#8 ∧ signsDiffer a b = false
    else narrowDatapath tie a b = narrowResult tie ooc a b

/-- The wide native-width datapath computes the wide operation under `SYMMETRIC` for every pair and both tie rules, and its
saturation test is `ovf_neg` where the signs differ and `ovf_pos` where they agree (spec/42_arithmetic_laws.md R99, the
spec's own construction; assumption log entry 16). -/
def Obligations.WideDatapathComputesWide : Prop :=
  ∀ (tie : Tie) (a b : Half),
    wideDatapath tie a b = wideResult tie .symmetric a b ∧
    (signsDiffer a b = false → wideSaturates tie a b = ovfPos tie (sint a) (sint b)) ∧
    (signsDiffer a b = true → wideSaturates tie a b = ovfNeg tie (sint a) (sint b))

/-! ## Purity, independence, completion -/

/-- The whole next state of each instruction: its own path's three ports, carrying the pair and the path's function of it at
the unit's parameters (spec/40_narrow_path.md R59, spec/41_wide_path.md R69, decision D8 of the spec; assumption log entries 3
to 5). The statements about `narrowResult` and `wideResult` reach the instructions through this one. -/
def Obligations.EachInstructionDrivesItsPathsFunction : Prop :=
  ∀ (s : State),
    (∀ a b : Byte, exec (.narrow a b) s =
      .next { s with na := a, nb := b, nr := narrowResult Config.tie Config.narrowOocResult a b }) ∧
    ∀ a b : Half, exec (.wide a b) s = .next { s with wa := a, wb := b, wr := wideResult Config.tie wideNegFloor a b }

/-- spec/41_wide_path.md R78 and spec/70_reset_and_hazards.md R126: every operation completes, in every state, for every
pair. -/
def Obligations.EveryOperationCompletes : Prop :=
  ∀ (i : Instr) (s : State), ∃ t : State, exec i s = .next t

/-- spec/10_state.md R32: a path's result is a function of its pair, whatever operations came before or come between, the
out-of-contract pair included. -/
def Obligations.ResultDependsOnThePairAlone : Prop :=
  ∀ i : Instr, ∃ r : Response, ∀ (s : State) (earlier : List Instr),
    (responses (earlier ++ [i]) s).getLast? = some r ∧ (responses (i :: earlier ++ [i]) s).head? = some r

/-- spec/10_state.md R29: the two paths do not interact. A result depends on its own path's pair only, an operation of one
path leaves the other's ports as they were, and two operations on different paths leave the same state in either order. -/
def Obligations.PathsDoNotInteract : Prop :=
  ∀ (a b : Byte) (c d : Half) (s : State), ∃ n w t : State,
    (∀ s' : State, ∃ n' w' : State, exec (.narrow a b) s' = .next n' ∧ n'.nr = n.nr ∧
      exec (.wide c d) s' = .next w' ∧ w'.wr = w.wr) ∧
    exec (.narrow a b) s = .next n ∧ exec (.wide c d) s = .next w ∧
    n.wa = s.wa ∧ n.wb = s.wb ∧ n.wr = s.wr ∧ w.na = s.na ∧ w.nb = s.nb ∧ w.nr = s.nr ∧
    exec (.wide c d) n = .next t ∧ exec (.narrow a b) w = .next t ∧ t.nr = n.nr ∧ t.wr = w.wr

/-- spec/20_memory.md R39: operations performed in any order, from any state, each return what they return alone. -/
def Obligations.OperationsAreOrderIndependent : Prop :=
  (∀ (l : List Instr) (s : State), (responses l s).map some = l.map respond) ∧
  ∀ (l l' : List Instr) (s s' : State), l.Perm l' → (responses l s).Perm (responses l' s')

/-- Every operation is idempotent, and a response has its path's width (spec/20_memory.md, memory access section). -/
def Obligations.OperationsAreIdempotent : Prop :=
  ∀ (i : Instr) (s : State), ∃ t : State, exec i s = .next t ∧ exec i t = .next t ∧ (t.response i.path).path = i.path

/-! ## The step and the host's program -/

/-- A step performs the decoded instruction. When the next command is a request word that decodes to `i`, the step is `exec`
of `i` on the state with that command taken off; and a table word placed by `withFetchWord` is that next command. How the
host holds its program is the model's (assumption log entry 6). -/
def Obligations.StepPerformsTheDecodedInstruction : Prop :=
  (∀ (s : State) (p : Path) (word : Nat) (rest : List Command) (i : Instr),
    s.pending = .request p word :: rest → decode p word = .ok i → step s = exec i { s with pending := rest }) ∧
  ∀ (s : State) (nbits word : Nat) (i : Instr),
    decodeTableWord nbits word = some i → step (s.withFetchWord nbits word) = exec i s

/-- A step over an assembler line performs the operation on the values of its two operands and writes the result to the
line's host variable and to no other (spec/30_encoding.md R55, decisions D5 and D15 of the spec; assumption log entry 8). -/
def Obligations.StepPerformsALine : Prop :=
  (∀ (s : State) (l : Line) (rest : List Command) (a b : Byte),
    s.pending = .line l :: rest → l.path = .narrow →
    narrowOperand s.vars l.x = .ok a → narrowOperand s.vars l.y = .ok b →
    ∃ t u : State, exec (.narrow a b) { s with pending := rest } = .next u ∧ step s = .next t ∧
      t = { u with vars := t.vars } ∧ t.vars.lookup l.d = some (.narrow u.nr) ∧
      ∀ e : HostVar, e ≠ l.d → t.vars.lookup e = s.vars.lookup e) ∧
  ∀ (s : State) (l : Line) (rest : List Command) (a b : Half),
    s.pending = .line l :: rest → l.path = .wide →
    wideOperand s.vars l.x = .ok a → wideOperand s.vars l.y = .ok b →
    ∃ t u : State, exec (.wide a b) { s with pending := rest } = .next u ∧ step s = .next t ∧
      t = { u with vars := t.vars } ∧ t.vars.lookup l.d = some (.wide u.wr) ∧
      ∀ e : HostVar, e ≠ l.d → t.vars.lookup e = s.vars.lookup e

/-- The operand forms of a line: a decimal literal in the domain denotes its integer, a hexadecimal one its pattern, `MIN`
and `MAX` exist on the wide path only, and a host variable is an operand of the path that wrote it only
(spec/30_encoding.md R55, R58, decision D5 of the spec; assumption log entries 8 and 13). -/
def Obligations.OperandsDenoteTheirValues : Prop :=
  ∀ vars : Vars,
    (∀ n : Int, -128 ≤ n → n ≤ 127 → ∃ v : Byte, narrowOperand vars (.lit (.dec n)) = .ok v ∧ sint v = n) ∧
    (∀ n : Int, -32768 ≤ n → n ≤ 32767 → ∃ v : Half, wideOperand vars (.lit (.dec n)) = .ok v ∧ sint v = n) ∧
    (∀ k : Nat, k < 2 ^ 8 → ∃ v : Byte, narrowOperand vars (.lit (.hex k)) = .ok v ∧ v.toNat = k) ∧
    (∀ k : Nat, k < 2 ^ 16 → ∃ v : Half, wideOperand vars (.lit (.hex k)) = .ok v ∧ v.toNat = k) ∧
    (∃ v : Half, wideOperand vars (.lit .wideMin) = .ok v ∧ sint v = -32768) ∧
    (∃ v : Half, wideOperand vars (.lit .wideMax) = .ok v ∧ sint v = 32767) ∧
    narrowOperand vars (.lit .wideMin) = .error (.literalOutOfDomain .narrow .wideMin) ∧
    narrowOperand vars (.lit .wideMax) = .error (.literalOutOfDomain .narrow .wideMax) ∧
    (∀ (x : HostVar) (v : Byte), vars.lookup x = some (.narrow v) →
      narrowOperand vars (.var x) = .ok v ∧ wideOperand vars (.var x) = .error (.hostVariableOfOtherPath x)) ∧
    ∀ (x : HostVar) (v : Half), vars.lookup x = some (.wide v) →
      wideOperand vars (.var x) = .ok v ∧ narrowOperand vars (.var x) = .error (.hostVariableOfOtherPath x)

/-- The errors of a program, and nothing else, stop the host before it presents anything (spec/30_encoding.md R55, R58,
decision D5 of the spec; assumption log entry 8): an operand of the next line in error, in either place, the first one named
where both are; and a listed word too wide for its path (the model's choice, assumption log entry 10). -/
def Obligations.ProgramErrorsAreRefused : Prop :=
  (∀ (s : State) (l : Line) (rest : List Command), s.pending = .line l :: rest →
    (∀ r : Refusal, OperandError s.vars l.path l.x r → step s = .refused r) ∧
    ∀ r : Refusal, (∀ r' : Refusal, ¬ OperandError s.vars l.path l.x r') → OperandError s.vars l.path l.y r →
      step s = .refused r) ∧
  (∀ (s : State) (p : Path) (word : Nat) (rest : List Command), s.pending = .request p word :: rest →
    2 ^ p.requestBits ≤ word → step s = .refused (.undecodable (.wordTooWide p word))) ∧
  ∀ (s : State) (r : Refusal), step s = .refused r →
    (∃ l rest, s.pending = .line l :: rest ∧
      (OperandError s.vars l.path l.x r ∨ OperandError s.vars l.path l.y r)) ∨
    ∃ p word rest, s.pending = .request p word :: rest ∧ 2 ^ p.requestBits ≤ word ∧
      r = .undecodable (.wordTooWide p word)

/-- A host whose program is well formed is never refused, and what is left of its program stays well formed
(spec/30_encoding.md R55 with spec/40_narrow_path.md R65 and spec/41_wide_path.md R78; the program is the model's, assumption
log entry 8). -/
def Obligations.WellFormedProgramIsNeverRefused : Prop :=
  ∀ s : State, s.ProgramOk → ∃ t : State, step s = .next t ∧ t.ProgramOk ∧ t.pending = s.pending.tail

/-- A well-formed program runs to its end, one step a command (spec/70_reset_and_hazards.md R126, spec/30_encoding.md R55; the
program is the model's, assumption log entry 8). -/
def Obligations.WellFormedProgramRunsToItsEnd : Prop :=
  ∀ s : State, s.ProgramOk → ∃ t : State, core.run s.pending.length s = .next t ∧ t.pending = []

/-! ## Invariants -/

/-- Each output port keeps carrying the function of its own input ports (spec/10_state.md R31, decision D11 of the spec), and
the host variables keep their canonical form (the model's, assumption log entry 8). -/
def Obligations.StepKeepsThePortsInAgreement : Prop :=
  ∀ s t : State, s.PortsAgree → s.VarsCanonical → step s = .next t → t.PortsAgree ∧ t.VarsCanonical

/-- No step brings `-32768` to the wide output port or to a host variable (spec/41_wide_path.md R73, R77 as decision D8 of the
spec settles them; assumption log entry 5). -/
def Obligations.StepNeverYieldsTheWideMinimum : Prop :=
  ∀ s t : State, s.wr ≠ 0x8000#16 → (∀ e ∈ s.vars, NotWideMIN e.2) → step s = .next t →
    t.wr ≠ 0x8000#16 ∧ ∀ e ∈ t.vars, NotWideMIN e.2

/-- The invariants hold of the state before the first operation, whose port values are the model's choice (assumption log
entry 2). -/
def Obligations.ResetMeetsTheInvariants : Prop :=
  State.reset.PortsAgree ∧ State.reset.VarsCanonical ∧ State.reset.ProgramOk ∧
  State.reset.wr ≠ 0x8000#16 ∧ ∀ e ∈ State.reset.vars, NotWideMIN e.2
end

