-- ==== Sys2Proof/Laws/Ops.lean ====
section
/-!
SUPPORT. For each shared operation one lemma that says once everything it can do, and the laws of the host variables.
-/

namespace Sys2Proof.Machine

/-! ### Rounding and clamping -/

/-- Everything `roundDiv` can answer (spec/00_scope.md R16). -/
theorem roundDiv_cases (P : Int) (s : Nat) (tie : Tie) :
    (modK P s < 2 ^ (s - 1) ∧ roundDiv P s tie = divK P s) ∨
    (2 ^ (s - 1) < modK P s ∧ roundDiv P s tie = divK P s + 1) ∨
    (modK P s = 2 ^ (s - 1) ∧
      ((tie = .halfAway ∧ 0 ≤ P ∧ roundDiv P s tie = divK P s + 1) ∨
       (tie = .halfAway ∧ P < 0 ∧ roundDiv P s tie = divK P s) ∨
       (tie = .halfEven ∧ divK P s % 2 = 0 ∧ roundDiv P s tie = divK P s) ∨
       (tie = .halfEven ∧ divK P s % 2 = 1 ∧ roundDiv P s tie = divK P s + 1))) := by
  rcases lt_trichotomy (modK P s) (2 ^ (s - 1)) with h | h | h
  · exact .inl ⟨h, by simp [roundDiv, h]⟩
  · refine .inr (.inr ⟨h, ?_⟩)
    cases tie
    · rcases Int.lt_or_le P 0 with hp | hp
      · exact .inr (.inl ⟨rfl, hp, by simp [roundDiv, h, Int.not_le.mpr hp]⟩)
      · exact .inl ⟨rfl, hp, by simp [roundDiv, h, hp]⟩
    · rcases Int.emod_two_eq_zero_or_one (divK P s) with hq | hq
      · exact .inr (.inr (.inl ⟨rfl, hq, by simp [roundDiv, h, hq]⟩))
      · exact .inr (.inr (.inr ⟨rfl, hq, by simp [roundDiv, h, hq]⟩))
  · exact .inr (.inl ⟨h, by simp [roundDiv, h, not_lt_of_gt h]⟩)

/-- Quotient and remainder make up the dividend (spec/00_scope.md R15). -/
theorem divK_modK (P : Int) (s : Nat) : 2 ^ s * divK P s + modK P s = P := Int.mul_ediv_add_emod P (2 ^ s)

theorem modK_nonneg (P : Int) (s : Nat) : 0 ≤ modK P s := Int.emod_nonneg P (by positivity)

theorem modK_lt (P : Int) (s : Nat) : modK P s < 2 ^ s := Int.emod_lt_of_pos P (by positivity)

/-- `divK` and `modK` are the floor quotient and its remainder (spec/00_scope.md R15). -/
theorem divK_eq_fdiv (P : Int) (s : Nat) : divK P s = Int.fdiv P (2 ^ s) :=
  (Int.fdiv_eq_ediv_of_nonneg P (by positivity)).symm

theorem modK_eq_fmod (P : Int) (s : Nat) : modK P s = Int.fmod P (2 ^ s) :=
  (Int.fmod_eq_emod_of_nonneg P (by positivity)).symm

/-- Everything `clamp` can answer (spec/00_scope.md R17). -/
theorem clamp_cases (t lo hi : Int) :
    (t < lo ∧ clamp t lo hi = lo) ∨ (lo ≤ t ∧ hi < t ∧ clamp t lo hi = hi) ∨ (lo ≤ t ∧ t ≤ hi ∧ clamp t lo hi = t) := by
  unfold clamp
  split
  · exact .inl ⟨‹_›, rfl⟩
  · split
    · exact .inr (.inl ⟨by omega, ‹_›, rfl⟩)
    · exact .inr (.inr ⟨by omega, by omega, rfl⟩)

/-! ### The two paths as functions of their ports -/

/-- The narrow function off and on its one out-of-contract pair (spec/40_narrow_path.md R59). -/
theorem narrowResult_cases (tie : Tie) (ooc a b : Byte) :
    ((sint a = -128 ∧ sint b = -128) ∧ narrowResult tie ooc a b = ooc) ∨
    (¬ (sint a = -128 ∧ sint b = -128) ∧ narrowResult tie ooc a b = bits 8 (roundDiv (sint a * sint b) 7 tie)) := by
  by_cases h : sint a = -128 ∧ sint b = -128
  · exact .inl ⟨h, by simp [narrowResult, outOfContract, h]⟩
  · exact .inr ⟨h, by simp [narrowResult, outOfContract, h, narrowTrue, narrowShift]⟩

/-- The wide function above, below and within its range (spec/41_wide_path.md R69). -/
theorem wideResult_cases (tie : Tie) (floor : NegFloor) (a b : Half) :
    (32767 < roundDiv (sint a * sint b) 10 tie ∧ wideResult tie floor a b = bits 16 32767) ∨
    (roundDiv (sint a * sint b) 10 tie ≤ -32768 ∧ wideResult tie floor a b = bits 16 (wideFloor floor (sint a) (sint b))) ∨
    (-32767 ≤ roundDiv (sint a * sint b) 10 tie ∧ roundDiv (sint a * sint b) 10 tie ≤ 32767 ∧
      wideResult tie floor a b = bits 16 (roundDiv (sint a * sint b) 10 tie)) := by
  have hT : wideTrue tie (sint a) (sint b) = roundDiv (sint a * sint b) 10 tie := rfl
  by_cases hp : 32767 < roundDiv (sint a * sint b) 10 tie
  · exact .inl ⟨hp, by simp [wideResult, ovfPos, wideMAX, hT, hp]⟩
  · by_cases hn : roundDiv (sint a * sint b) 10 tie ≤ -32768
    · exact .inr (.inl ⟨hn, by simp [wideResult, ovfPos, ovfNeg, wideMAX, wideMIN, hT, hp, hn]⟩)
    · exact .inr (.inr ⟨by omega, by omega, by simp [wideResult, ovfPos, ovfNeg, wideMAX, wideMIN, hT, hp, hn]⟩)

/-- Everything `wideFloor` can answer (spec/41_wide_path.md R69, R74). -/
theorem wideFloor_cases (floor : NegFloor) (a b : Int) :
    (floor = .symmetric ∧ wideFloor floor a b = -32767) ∨
    (floor = .pointwise ∧ pinnedPair a b = true ∧ wideFloor floor a b = -32767) ∨
    (floor = .pointwise ∧ pinnedPair a b = false ∧ wideFloor floor a b = -32768) := by
  cases floor
  · exact .inl ⟨rfl, rfl⟩
  · cases h : pinnedPair a b
    · exact .inr (.inr ⟨rfl, rfl, by simp [wideFloor, h]⟩)
    · exact .inr (.inl ⟨rfl, rfl, by simp [wideFloor, h]⟩)

theorem pinnedPair_iff (a b : Int) :
    pinnedPair a b = true ↔ (a = 1024 ∧ b = -32768) ∨ (a = -32768 ∧ b = 1024) := by
  simp [pinnedPair]

/-! ### Signed reading -/

/-- The signed reading of a narrow port lies in the narrow domain (spec/00_scope.md R8, R14). -/
theorem sint_narrow_range (v : Byte) : -128 ≤ sint v ∧ sint v ≤ 127 := by
  have h := BitVec.toInt_lt (x := v)
  have h' := BitVec.le_toInt (x := v)
  simp only [sint]
  omega

/-- The signed reading of a wide port lies in the wide domain (spec/00_scope.md R8, R14). -/
theorem sint_wide_range (v : Half) : -32768 ≤ sint v ∧ sint v ≤ 32767 := by
  have h := BitVec.toInt_lt (x := v)
  have h' := BitVec.le_toInt (x := v)
  simp only [sint]
  omega

/-- `bits_8` loses nothing on the narrow domain (spec/00_scope.md R14). -/
theorem sint_bits_narrow (i : Int) (lo : -128 ≤ i) (hi : i ≤ 127) : sint (bits 8 i) = i := by
  simp only [sint, bits, BitVec.toInt_ofInt, Int.bmod]
  omega

/-- `bits_16` loses nothing on the wide domain (spec/00_scope.md R14). -/
theorem sint_bits_wide (i : Int) (lo : -32768 ≤ i) (hi : i ≤ 32767) : sint (bits 16 i) = i := by
  simp only [sint, bits, BitVec.toInt_ofInt, Int.bmod]
  omega

/-! ### Host variables -/

/-- Reading back the variable just written. -/
@[simp] theorem lookup_setVar_self (d : HostVar) (v : Response) (vars : Vars) : (setVar d v vars).lookup d = some v := by
  induction vars with
  | nil => simp [setVar]
  | cons e rest ih =>
    obtain ⟨e, w⟩ := e
    simp only [setVar]
    split
    · simp
    · split
      · simp
      · have hb : (d == e) = false := by simpa using ‹¬ d = e›
        simpa [List.lookup_cons, hb] using ih

/-- Writing one variable leaves every other as it was. -/
theorem lookup_setVar_of_ne {d e : HostVar} (h : e ≠ d) (v : Response) (vars : Vars) :
    (setVar d v vars).lookup e = vars.lookup e := by
  have hb : (e == d) = false := by simpa using h
  induction vars with
  | nil => simp [setVar, List.lookup_cons, hb]
  | cons f rest ih =>
    obtain ⟨f, w⟩ := f
    simp only [setVar]
    split
    · simp [List.lookup_cons, hb]
    · split
      · subst_vars
        simp [List.lookup_cons, hb]
      · simp only [List.lookup_cons, ih]

/-- The canonical form of a variable list with a first entry, unfolded once. -/
theorem varsCanonical_cons (d : HostVar) (v : Response) (vars : Vars) :
    varsCanonical ((d, v) :: vars) = true ↔ (∀ e ∈ vars.head?, d < e.1) ∧ varsCanonical vars = true := by
  cases vars with
  | nil => simp [varsCanonical]
  | cons e rest => simp [varsCanonical]

/-- Writing a variable keeps the canonical form. -/
theorem varsCanonical_setVar (d : HostVar) (v : Response) (vars : Vars) (h : varsCanonical vars = true) :
    varsCanonical (setVar d v vars) = true := by
  induction vars with
  | nil => rfl
  | cons e rest ih =>
    obtain ⟨e, w⟩ := e
    rw [varsCanonical_cons] at h
    simp only [setVar]
    split
    · rw [varsCanonical_cons, varsCanonical_cons]
      exact ⟨by simpa using ‹d < e›, h⟩
    · split
      · subst_vars
        rw [varsCanonical_cons]
        exact h
      · rw [varsCanonical_cons]
        refine ⟨?_, ih h.2⟩
        have hed : e < d := Nat.lt_of_le_of_ne (Nat.le_of_not_lt ‹¬ d < e›) (Ne.symm ‹¬ d = e›)
        cases rest with
        | nil => simpa [setVar] using hed
        | cons f rest =>
          obtain ⟨f, x⟩ := f
          have hef : e < f := by simpa using h.1
          simp only [setVar]
          split
          · simpa using hed
          · split
            · simpa using hed
            · simpa using hef

/-- The variables after a write: the new one, or one that was there. -/
theorem mem_setVar {d : HostVar} {v : Response} {vars : Vars} {e : HostVar × Response} (h : e ∈ setVar d v vars) :
    e = (d, v) ∨ e ∈ vars := by
  induction vars with
  | nil => simpa [setVar] using h
  | cons f rest ih =>
    obtain ⟨f, w⟩ := f
    simp only [setVar] at h
    split at h
    · simpa using h
    · split at h
      · rcases List.mem_cons.mp h with h | h
        · exact .inl h
        · exact .inr (List.mem_cons_of_mem _ h)
      · rcases List.mem_cons.mp h with h | h
        · exact .inr (h ▸ List.mem_cons_self)
        · rcases ih h with h | h
          · exact .inl h
          · exact .inr (List.mem_cons_of_mem _ h)

/-! ### Operands, fetch and step -/

/-- Everything a narrow operand can resolve to. -/
theorem narrowOperand_ok {vars : Vars} {o : Operand} {a : Byte} (h : narrowOperand vars o = .ok a) :
    (∃ l, o = .lit l ∧ l.wf .narrow = true ∧ a = literalBits 8 l) ∨
    (∃ v, o = .var v ∧ vars.lookup v = some (.narrow a)) := by
  cases o with
  | lit l =>
    simp only [narrowOperand] at h
    split at h
    · exact .inl ⟨l, rfl, ‹_›, by simpa using h.symm⟩
    · cases h
  | var v =>
    simp only [narrowOperand] at h
    split at h
    · cases h
    · exact .inr ⟨v, rfl, by simp_all⟩
    · cases h

/-- Everything a wide operand can resolve to. -/
theorem wideOperand_ok {vars : Vars} {o : Operand} {a : Half} (h : wideOperand vars o = .ok a) :
    (∃ l, o = .lit l ∧ l.wf .wide = true ∧ a = literalBits 16 l) ∨
    (∃ v, o = .var v ∧ vars.lookup v = some (.wide a)) := by
  cases o with
  | lit l =>
    simp only [wideOperand] at h
    split at h
    · exact .inl ⟨l, rfl, ‹_›, by simpa using h.symm⟩
    · cases h
  | var v =>
    simp only [wideOperand] at h
    split at h
    · cases h
    · exact .inr ⟨v, rfl, by simp_all⟩
    · cases h

/-- A literal operand is in error just when it is not well formed on the path. -/
theorem operandError_lit {vars : Vars} {p : Path} {l : Literal} {r : Refusal} :
    OperandError vars p (.lit l) r ↔ l.wf p = false ∧ r = .literalOutOfDomain p l := by
  cases l with
  | dec n =>
    have : (Literal.dec n).wf p = false ↔ n < p.least ∨ p.greatest < n := by
      simp only [Literal.wf, Bool.and_eq_false_iff, decide_eq_false_iff_not, Int.not_le]
    simp [OperandError, this]
  | hex k => simp [OperandError, Literal.wf]
  | wideMin => cases p <;> simp [OperandError, Literal.wf]
  | wideMax => cases p <;> simp [OperandError, Literal.wf]

/-- A variable operand is in error just when no line, or one of the other path, wrote it. -/
theorem operandError_var {vars : Vars} {p : Path} {x : HostVar} {r : Refusal} :
    OperandError vars p (.var x) r ↔
      (vars.lookup x = none ∧ r = .hostVariableUnwritten x) ∨
      (∃ v, vars.lookup x = some v ∧ v.path ≠ p ∧ r = .hostVariableOfOtherPath x) := by
  simp only [OperandError, reduceCtorEq, false_and, exists_false, false_or, Operand.var.injEq, exists_eq_left',
    exists_and_left]

/-- A narrow operand resolves to a byte unless it is an error of the program, and then to that error's reason. -/
theorem narrowOperand_error {vars : Vars} {o : Operand} {r : Refusal} :
    narrowOperand vars o = .error r ↔ OperandError vars .narrow o r := by
  cases o with
  | lit l => cases h : l.wf .narrow <;> simp [operandError_lit, narrowOperand, h, eq_comm]
  | var x =>
    rw [operandError_var, narrowOperand]
    rcases vars.lookup x with _ | _ | _ <;> simp [Response.path, eq_comm]

/-- A wide operand resolves to a half unless it is an error of the program, and then to that error's reason. -/
theorem wideOperand_error {vars : Vars} {o : Operand} {r : Refusal} :
    wideOperand vars o = .error r ↔ OperandError vars .wide o r := by
  cases o with
  | lit l => cases h : l.wf .wide <;> simp [operandError_lit, wideOperand, h, eq_comm]
  | var x =>
    rw [operandError_var, wideOperand]
    rcases vars.lookup x with _ | _ | _ <;> simp [Response.path, eq_comm]

/-- Everything `fetch` needs to answer an operation: a next command, and a word that decodes. -/
theorem fetch_op {s : State} {i : Instr} {dest : Option HostVar} (h : fetch s = .op i dest) :
    ∃ c rest, s.pending = c :: rest ∧
      ((∃ p word, c = .request p word ∧ dest = none ∧ decode p word = .ok i) ∨
       (∃ l word, c = .line l ∧ dest = some l.d ∧ lineRequest s.vars l = .ok word ∧ decode l.path word = .ok i)) := by
  unfold fetch at h
  split at h
  · cases h
  · rename_i c rest hc
    refine ⟨c, rest, hc, ?_⟩
    cases c with
    | request p word =>
      simp only [fetchCommand, fetchRequest] at h
      split at h
      · cases h
        exact .inl ⟨p, word, rfl, rfl, ‹_›⟩
      · cases h
    | line l =>
      simp only [fetchCommand, fetchRequest] at h
      split at h
      · rename_i word hw
        split at h
        · cases h
          exact .inr ⟨l, word, rfl, rfl, hw, ‹_›⟩
        · cases h
      · cases h

/-- Everything a step that answers a next state can have done: nothing, or one operation and the taking of its result. -/
theorem step_next {s t : State} (h : step s = .next t) :
    (s.pending = [] ∧ t = s) ∨
    (∃ i dest u, fetch s = .op i dest ∧ exec i s.advance = .next u ∧ t = u.takeResult i.path dest) := by
  unfold step at h
  split at h
  · rename_i hf
    refine .inl ⟨?_, by cases h; rfl⟩
    unfold fetch at hf
    split at hf
    · assumption
    · rename_i c _ _
      cases c <;> simp only [fetchCommand, fetchRequest] at hf <;> split at hf <;> try cases hf
      split at hf <;> cases hf
  · cases h
  · rename_i i dest hf
    refine .inr ?_
    split at h
    · rename_i u hu
      exact ⟨i, dest, u, hf, hu, by cases h; rfl⟩
    · cases h
    · cases h

/-- A step is refused by the fetch alone: no instruction is. -/
theorem step_refused {s : State} {r : Refusal} (h : step s = .refused r) : fetch s = .refused r := by
  unfold step at h
  split at h
  · cases h
  · rename_i hf
    cases h
    exact hf
  · rename_i i _ _
    cases i <;> cases h

end Sys2Proof.Machine
end

