-- ==== Sys2Proof/Laws/PerInstr.lean ====
section
/-!
SUPPORT. Facts about every instruction as syntax, one lemma per constructor.
-/

namespace Sys2Proof.Laws

/-- The request word of an instruction fits its path's format (spec/30_encoding.md R48, R49). -/
def EncodeFits.Statement (i : Instr) : Prop := encode i < 2 ^ i.path.requestBits

theorem EncodeFits.narrow (a b : Byte) : EncodeFits.Statement (.narrow a b) := (concat a b).isLt

theorem EncodeFits.wide (a b : Half) : EncodeFits.Statement (.wide a b) := (concat a b).isLt

/-- Every instruction is well formed (spec/30_encoding.md R47). -/
def IsWellFormed.Statement (i : Instr) : Prop := i.wf = true

theorem IsWellFormed.narrow (a b : Byte) : IsWellFormed.Statement (.narrow a b) := rfl

theorem IsWellFormed.wide (a b : Half) : IsWellFormed.Statement (.wide a b) := rfl

end Sys2Proof.Laws
end

