-- ==== Sys2Proof/Laws/State.lean ====
section
/-!
SUPPORT. One lemma per field per update of the state, and what is read on the ports after one.
-/

namespace Sys2Proof.Machine

@[simp] theorem State.presentNarrow_na (s : State) (a b : Byte) : (s.presentNarrow a b).na = a := rfl
@[simp] theorem State.presentNarrow_nb (s : State) (a b : Byte) : (s.presentNarrow a b).nb = b := rfl
@[simp] theorem State.presentNarrow_nr (s : State) (a b : Byte) : (s.presentNarrow a b).nr = s.nr := rfl
@[simp] theorem State.presentNarrow_wa (s : State) (a b : Byte) : (s.presentNarrow a b).wa = s.wa := rfl
@[simp] theorem State.presentNarrow_wb (s : State) (a b : Byte) : (s.presentNarrow a b).wb = s.wb := rfl
@[simp] theorem State.presentNarrow_wr (s : State) (a b : Byte) : (s.presentNarrow a b).wr = s.wr := rfl
@[simp] theorem State.presentNarrow_pending (s : State) (a b : Byte) : (s.presentNarrow a b).pending = s.pending := rfl
@[simp] theorem State.presentNarrow_vars (s : State) (a b : Byte) : (s.presentNarrow a b).vars = s.vars := rfl

@[simp] theorem State.presentWide_na (s : State) (a b : Half) : (s.presentWide a b).na = s.na := rfl
@[simp] theorem State.presentWide_nb (s : State) (a b : Half) : (s.presentWide a b).nb = s.nb := rfl
@[simp] theorem State.presentWide_nr (s : State) (a b : Half) : (s.presentWide a b).nr = s.nr := rfl
@[simp] theorem State.presentWide_wa (s : State) (a b : Half) : (s.presentWide a b).wa = a := rfl
@[simp] theorem State.presentWide_wb (s : State) (a b : Half) : (s.presentWide a b).wb = b := rfl
@[simp] theorem State.presentWide_wr (s : State) (a b : Half) : (s.presentWide a b).wr = s.wr := rfl
@[simp] theorem State.presentWide_pending (s : State) (a b : Half) : (s.presentWide a b).pending = s.pending := rfl
@[simp] theorem State.presentWide_vars (s : State) (a b : Half) : (s.presentWide a b).vars = s.vars := rfl

@[simp] theorem State.driveNr_na (s : State) (v : Byte) : (s.driveNr v).na = s.na := rfl
@[simp] theorem State.driveNr_nb (s : State) (v : Byte) : (s.driveNr v).nb = s.nb := rfl
@[simp] theorem State.driveNr_nr (s : State) (v : Byte) : (s.driveNr v).nr = v := rfl
@[simp] theorem State.driveNr_wa (s : State) (v : Byte) : (s.driveNr v).wa = s.wa := rfl
@[simp] theorem State.driveNr_wb (s : State) (v : Byte) : (s.driveNr v).wb = s.wb := rfl
@[simp] theorem State.driveNr_wr (s : State) (v : Byte) : (s.driveNr v).wr = s.wr := rfl
@[simp] theorem State.driveNr_pending (s : State) (v : Byte) : (s.driveNr v).pending = s.pending := rfl
@[simp] theorem State.driveNr_vars (s : State) (v : Byte) : (s.driveNr v).vars = s.vars := rfl

@[simp] theorem State.driveWr_na (s : State) (v : Half) : (s.driveWr v).na = s.na := rfl
@[simp] theorem State.driveWr_nb (s : State) (v : Half) : (s.driveWr v).nb = s.nb := rfl
@[simp] theorem State.driveWr_nr (s : State) (v : Half) : (s.driveWr v).nr = s.nr := rfl
@[simp] theorem State.driveWr_wa (s : State) (v : Half) : (s.driveWr v).wa = s.wa := rfl
@[simp] theorem State.driveWr_wb (s : State) (v : Half) : (s.driveWr v).wb = s.wb := rfl
@[simp] theorem State.driveWr_wr (s : State) (v : Half) : (s.driveWr v).wr = v := rfl
@[simp] theorem State.driveWr_pending (s : State) (v : Half) : (s.driveWr v).pending = s.pending := rfl
@[simp] theorem State.driveWr_vars (s : State) (v : Half) : (s.driveWr v).vars = s.vars := rfl

@[simp] theorem State.advance_na (s : State) : (s.advance).na = s.na := rfl
@[simp] theorem State.advance_nb (s : State) : (s.advance).nb = s.nb := rfl
@[simp] theorem State.advance_nr (s : State) : (s.advance).nr = s.nr := rfl
@[simp] theorem State.advance_wa (s : State) : (s.advance).wa = s.wa := rfl
@[simp] theorem State.advance_wb (s : State) : (s.advance).wb = s.wb := rfl
@[simp] theorem State.advance_wr (s : State) : (s.advance).wr = s.wr := rfl
@[simp] theorem State.advance_pending (s : State) : (s.advance).pending = s.pending.tail := rfl
@[simp] theorem State.advance_vars (s : State) : (s.advance).vars = s.vars := rfl

@[simp] theorem State.withFetchWord_na (s : State) (nbits w : Nat) : (s.withFetchWord nbits w).na = s.na := rfl
@[simp] theorem State.withFetchWord_nb (s : State) (nbits w : Nat) : (s.withFetchWord nbits w).nb = s.nb := rfl
@[simp] theorem State.withFetchWord_nr (s : State) (nbits w : Nat) : (s.withFetchWord nbits w).nr = s.nr := rfl
@[simp] theorem State.withFetchWord_wa (s : State) (nbits w : Nat) : (s.withFetchWord nbits w).wa = s.wa := rfl
@[simp] theorem State.withFetchWord_wb (s : State) (nbits w : Nat) : (s.withFetchWord nbits w).wb = s.wb := rfl
@[simp] theorem State.withFetchWord_wr (s : State) (nbits w : Nat) : (s.withFetchWord nbits w).wr = s.wr := rfl
@[simp] theorem State.withFetchWord_pending (s : State) (nbits w : Nat) : (s.withFetchWord nbits w).pending = placeTableWord nbits w s.pending := rfl
@[simp] theorem State.withFetchWord_vars (s : State) (nbits w : Nat) : (s.withFetchWord nbits w).vars = s.vars := rfl

@[simp] theorem State.takeResult_none (s : State) (p : Path) : s.takeResult p none = s := rfl

@[simp] theorem State.takeResult_some_vars (s : State) (p : Path) (d : HostVar) :
    (s.takeResult p (some d)).vars = setVar d (s.response p) s.vars := rfl

@[simp] theorem State.takeResult_na (s : State) (p : Path) (dest : Option HostVar) :
    (s.takeResult p dest).na = s.na := by
  cases dest <;> rfl

@[simp] theorem State.takeResult_nb (s : State) (p : Path) (dest : Option HostVar) :
    (s.takeResult p dest).nb = s.nb := by
  cases dest <;> rfl

@[simp] theorem State.takeResult_nr (s : State) (p : Path) (dest : Option HostVar) :
    (s.takeResult p dest).nr = s.nr := by
  cases dest <;> rfl

@[simp] theorem State.takeResult_wa (s : State) (p : Path) (dest : Option HostVar) :
    (s.takeResult p dest).wa = s.wa := by
  cases dest <;> rfl

@[simp] theorem State.takeResult_wb (s : State) (p : Path) (dest : Option HostVar) :
    (s.takeResult p dest).wb = s.wb := by
  cases dest <;> rfl

@[simp] theorem State.takeResult_wr (s : State) (p : Path) (dest : Option HostVar) :
    (s.takeResult p dest).wr = s.wr := by
  cases dest <;> rfl

@[simp] theorem State.takeResult_pending (s : State) (p : Path) (dest : Option HostVar) :
    (s.takeResult p dest).pending = s.pending := by
  cases dest <;> rfl

@[simp] theorem State.response_narrow (s : State) : s.response .narrow = .narrow s.nr := rfl

@[simp] theorem State.response_wide (s : State) : s.response .wide = .wide s.wr := rfl

@[simp] theorem State.response_path (s : State) (p : Path) : (s.response p).path = p := by
  cases p <;> rfl

@[simp] theorem State.takeResult_response (s : State) (p q : Path) (dest : Option HostVar) :
    (s.takeResult p dest).response q = s.response q := by
  cases dest <;> cases q <;> rfl

@[simp] theorem State.reset_na : State.reset.na = 0 := rfl
@[simp] theorem State.reset_nb : State.reset.nb = 0 := rfl
@[simp] theorem State.reset_nr : State.reset.nr = 0 := rfl
@[simp] theorem State.reset_wa : State.reset.wa = 0 := rfl
@[simp] theorem State.reset_wb : State.reset.wb = 0 := rfl
@[simp] theorem State.reset_wr : State.reset.wr = 0 := rfl
@[simp] theorem State.reset_pending : State.reset.pending = [] := rfl
@[simp] theorem State.reset_vars : State.reset.vars = [] := rfl

end Sys2Proof.Machine
end

