-- ==== Sys2Proof/Laws/Syntax.lean ====
section
/-!
SUPPORT. The small lemmas of the well-formedness checks, the decoder and the encoder.
-/

namespace Sys2Proof

@[simp] theorem Path.width_narrow : Path.narrow.width = 8 := rfl
@[simp] theorem Path.width_wide : Path.wide.width = 16 := rfl
@[simp] theorem Path.requestBits_narrow : Path.narrow.requestBits = 16 := rfl
@[simp] theorem Path.requestBits_wide : Path.wide.requestBits = 32 := rfl
@[simp] theorem Instr.path_narrow (a b : Byte) : (Instr.narrow a b).path = .narrow := rfl
@[simp] theorem Instr.path_wide (a b : Half) : (Instr.wide a b).path = .wide := rfl
@[simp] theorem Response.path_narrow (r : Byte) : (Response.narrow r).path = .narrow := rfl
@[simp] theorem Response.path_wide (r : Half) : (Response.wide r).path = .wide := rfl

/-- A decimal literal is well formed just in its path's domain (spec/30_encoding.md R58). -/
@[simp] theorem Literal.wf_dec (p : Path) (n : Int) : (Literal.dec n).wf p = true ↔ p.least ≤ n ∧ n ≤ p.greatest := by
  simp [Literal.wf]

/-- A hexadecimal literal is well formed just when it fits its path's width (spec/30_encoding.md R58). -/
@[simp] theorem Literal.wf_hex (p : Path) (v : Nat) : (Literal.hex v).wf p = true ↔ v < 2 ^ p.width := by
  simp [Literal.wf]

/-- A variable operand is well formed just when its own path wrote it last (spec/30_encoding.md R55). -/
@[simp] theorem Operand.wf_var (written : VarTypes) (p : Path) (v : HostVar) :
    (Operand.var v).wf written p = true ↔ written.lookup v = some p := by
  simp [Operand.wf]

@[simp] theorem Operand.wf_lit (written : VarTypes) (p : Path) (l : Literal) :
    (Operand.lit l).wf written p = l.wf p := rfl

theorem programWf_cons (written : VarTypes) (c : Command) (rest : List Command) :
    programWf written (c :: rest) = true ↔ c.wf written = true ∧ programWf (c.written written) rest = true := by
  simp [programWf]

/-- Whether a program is well formed depends only on what its context answers. -/
theorem programWf_congr {t t' : VarTypes} (h : ∀ v, t.lookup v = t'.lookup v) (l : List Command) :
    programWf t l = programWf t' l := by
  induction l generalizing t t' with
  | nil => rfl
  | cons c l ih =>
    have ho : ∀ (o : Operand) (p : Path), o.wf t p = o.wf t' p := by
      intro o p
      cases o <;> simp [Operand.wf, h]
    cases c with
    | request p w => simp [programWf, Command.wf, Command.written, ih h]
    | line k =>
      simp only [programWf, Command.wf, Line.wf, ho, Command.written]
      rw [ih]
      intro v
      simp [List.lookup_cons, h]

/-- What the variables themselves tell of the paths that wrote them. -/
@[simp] theorem Machine.lookup_varTypes (vars : Machine.Vars) (v : HostVar) :
    (Machine.varTypes vars).lookup v = (vars.lookup v).map Response.path := by
  induction vars with
  | nil => rfl
  | cons e rest ih =>
    obtain ⟨e, w⟩ := e
    simp only [Machine.varTypes, List.map_cons, List.lookup_cons] at *
    cases v == e <;> simp [ih]

/-- A 16-bit word on the narrow path (spec/30_encoding.md R48, R50). -/
theorem decode_narrow_of_lt {word : Nat} (h : word < 2 ^ 16) :
    decode .narrow word = .ok (decodeNarrow (BitVec.ofNat 16 word)) := if_pos h

/-- A 32-bit word on the wide path (spec/30_encoding.md R49, R50). -/
theorem decode_wide_of_lt {word : Nat} (h : word < 2 ^ 32) :
    decode .wide word = .ok (decodeWide (BitVec.ofNat 32 word)) := if_pos h

/-- The more significant part of a concatenation (spec/00_scope.md R13). -/
theorem slice_concat_high {m n : Nat} (x : BitVec m) (y : BitVec n) : slice (concat x y) n m = x := by
  simp only [slice, concat]
  ext i hi
  rw [BitVec.getElem_extractLsb', BitVec.getLsbD_append]
  simp [hi]

/-- The less significant part of a concatenation (spec/00_scope.md R13). -/
theorem slice_concat_low {m n : Nat} (x : BitVec m) (y : BitVec n) : slice (concat x y) 0 n = y := by
  simp only [slice, concat]
  ext i hi
  rw [BitVec.getElem_extractLsb', BitVec.getLsbD_append]
  simp [hi]

end Sys2Proof
end

