-- ==== Sys2Proof/Tests/Slice0.lean ====
section
/-!
SUPPORT. Tests of the model and, for each statement with hypotheses, a witness that meets them. Expected values come from
spec/95_test_vectors.md (S1 to S12, the derived vectors, the programs) and the tables of spec/40_narrow_path.md R67 and
spec/41_wide_path.md R80.
-/

open Sys2Proof Sys2Proof.Machine

namespace Sys2Proof.Tests

/-- A state with this program and these variables. -/
def hostWith (program : List Command) (vars : Vars) : State := { State.reset with pending := program, vars := vars }

/-! ### Well-formedness: each check refuses an ill-formed term -/

theorem test_wf_accepts_each_instruction :
    (Instr.narrow 0x80 0x80).wf = true ∧ (Instr.wide 0x8000 0x8000).wf = true := by decide

theorem test_wf_refuses_literals_outside_the_domain :
    (Literal.dec 128).wf .narrow = false ∧ (Literal.dec (-129)).wf .narrow = false ∧
    (Literal.dec 32768).wf .wide = false ∧ (Literal.dec (-32769)).wf .wide = false ∧
    (Literal.hex 0x100).wf .narrow = false ∧ (Literal.hex 0x10000).wf .wide = false ∧
    Literal.wideMin.wf .narrow = false ∧ Literal.wideMax.wf .narrow = false := by decide

theorem test_wf_accepts_literals_at_the_ends :
    (Literal.dec 127).wf .narrow = true ∧ (Literal.dec (-128)).wf .narrow = true ∧
    (Literal.dec 32767).wf .wide = true ∧ (Literal.dec (-32768)).wf .wide = true ∧
    (Literal.hex 0xFF).wf .narrow = true ∧ Literal.wideMin.wf .wide = true := by decide

theorem test_wf_refuses_unwritten_and_foreign_variables :
    (Line.mk .narrow 0 (.var 1) (.lit (.dec 0))).wf [] = false ∧
    (Line.mk .narrow 0 (.var 1) (.lit (.dec 0))).wf [(1, .wide)] = false ∧
    (Line.mk .wide 0 (.lit (.dec 0)) (.var 1)).wf [(1, .narrow)] = false ∧
    programWf [] [.line ⟨.narrow, 1, .var 1, .lit (.dec 0)⟩] = false ∧
    programWf [] [.request .narrow 0x10000] = false := by decide

/-- P1 of spec/95_test_vectors.md is well formed. -/
theorem test_wf_accepts_program_P1 :
    programWf [] [.line ⟨.narrow, 0, .lit (.dec 100), .lit (.dec 100)⟩, .line ⟨.narrow, 1, .var 0, .lit (.dec 100)⟩,
      .line ⟨.narrow, 2, .var 1, .lit (.dec (-128))⟩] = true := by decide

/-! ### Decoding: words written out bit by bit from spec/30_encoding.md R48, R49 -/

/-- `a = 1010_0101`, `b = 0011_1100`. -/
theorem test_decode_narrow_fields : decode .narrow 0b1010010100111100 = .ok (.narrow 0b10100101#8 0b00111100#8) := by rfl

/-- `a = 1000_0000_0000_0001`, `b = 0111_1111_0000_0010`. -/
theorem test_decode_wide_fields :
    decode .wide 0b10000000000000010111111100000010 = .ok (.wide 0b1000000000000001#16 0b0111111100000010#16) := by rfl

theorem test_decode_table_words :
    decodeTableWord 16 0x3240 = some (.narrow 50 64) ∧ decodeTableWord 32 0x01900200 = some (.wide 400 512) ∧
    decodeTableWord 24 0x3240 = none ∧ decodeTableWord 16 0x13240 = none := by decide

theorem test_decode_refuses_too_wide_a_word : decode .narrow 0x10000 = .error (.wordTooWide .narrow 0x10000) := by rfl

theorem test_encode_puts_a_above_b : encode (.narrow 0x32 0x40) = 0x3240 ∧ encode (.wide 0x0400 0x8000) = 0x04008000 := by
  decide

/-! ### The two instructions -/

/-- S1 to S3 and vectors of section 2.1 that no tie rule touches. -/
theorem test_narrow_listings :
    [Listing.mk .narrow 0x3240 0x19, ⟨.narrow, 0xCE40, 0xE7⟩, ⟨.narrow, 0xCEC0, 0x19⟩, ⟨.narrow, 0x0141, 0x01⟩,
      ⟨.narrow, 0xFF3F, 0x00⟩, ⟨.narrow, 0xB321, 0xEC⟩, ⟨.narrow, 0x8081, 0x7F⟩, ⟨.narrow, 0x807F, 0x81⟩].all listingAgrees
      = true := by decide

/-- Exact halves under both tie rules, and the out-of-contract pair (`N 0x8080 -> NARROW_OOC_RESULT`). -/
theorem test_narrow_parameters :
    narrowOf .halfAway 0 1 64 = 1 ∧ narrowOf .halfEven 0 1 64 = 0 ∧ narrowOf .halfAway 0 (-5) 64 = -3 ∧
    narrowOf .halfEven 0 (-5) 64 = -2 ∧ respond (.narrow 0x80 0x80) = some (.narrow Config.narrowOocResult) := by
  refine ⟨by decide, by decide, by decide, by decide, rfl⟩

/-- S4 to S12 and vectors of section 2.2 that no tie rule touches. -/
theorem test_wide_listings :
    [Listing.mk .wide 0x01900200 0x00C8, ⟨.wide, 0xFE700200, 0xFF38⟩, ⟨.wide, 0x80000064, 0xF380⟩,
      ⟨.wide, 0x1F401F40, 0x7FFF⟩, ⟨.wide, 0x60006000, 0x7FFF⟩, ⟨.wide, 0x7FFF7FFF, 0x7FFF⟩, ⟨.wide, 0x80008000, 0x7FFF⟩,
      ⟨.wide, 0x04008000, 0x8001⟩, ⟨.wide, 0x80000400, 0x8001⟩, ⟨.wide, 0x0800C000, 0x8001⟩, 
      ⟨.wide, 0x800003FF, 0x8020⟩, ⟨.wide, 0x03E8FC18, 0xFC2F⟩].all listingAgrees = true := by decide

/-- Exact halves under both tie rules, and the floor under `POINTWISE`. -/
theorem test_wide_parameters :
    wideOf .halfAway .symmetric (-1) 512 = -1 ∧ wideOf .halfEven .symmetric (-1) 512 = 0 ∧
    wideOf .halfAway .pointwise 2048 (-16384) = -32768 ∧ wideOf .halfAway .pointwise 1024 (-32768) = -32767 ∧
    wideOf .halfEven .pointwise (-32640) 1028 = -32768 := by decide

/-! ### The host's program -/

/-- Line 3 of P1: `NARROW n, c, -128` with `c = 61` gives `n = -61`. -/
theorem test_step_of_a_line :
    step (hostWith [.line ⟨.narrow, 2, .var 1, .lit (.dec (-128))⟩] [(1, .narrow 61)]) =
      .next { hostWith [] [(1, .narrow 61), (2, .narrow 0xC3)] with na := 61, nb := 0x80, nr := 0xC3 } := by rfl

theorem test_step_after_reset_runs_the_placed_word :
    step (State.reset.withFetchWord 32 0x01900200) = .next { State.reset with wa := 400, wb := 512, wr := 200 } := by rfl

theorem test_step_refuses_program_errors :
    step (hostWith [.line ⟨.narrow, 0, .var 7, .lit (.dec 0)⟩] []) = .refused (.hostVariableUnwritten 7) ∧
    step (hostWith [.line ⟨.narrow, 0, .var 7, .lit (.dec 0)⟩] [(7, .wide 1)]) = .refused (.hostVariableOfOtherPath 7) ∧
    step (hostWith [.line ⟨.narrow, 0, .lit (.dec 0), .lit .wideMax⟩] []) =
      .refused (.literalOutOfDomain .narrow .wideMax) ∧
    step (hostWith [.request .wide 0x100000000] []) = .refused (.undecodable (.wordTooWide .wide 0x100000000)) :=
  ⟨rfl, rfl, rfl, rfl⟩

theorem test_step_with_nothing_to_do : step State.reset = .next State.reset := by rfl

/-! ### Witnesses: concrete values that meet the hypotheses of each statement that has some -/

theorem witness_DecodeAndEncodeAreInverse :
    ((Instr.narrow 0x80 0x7F).wf = true ∧ (Instr.wide 1 2).wf = true) ∧
    decode .narrow 0xFFFF = .ok (.narrow 0xFF 0xFF) ∧ decode .wide 0xFFFFFFFF = .ok (.wide 0xFFFF 0xFFFF) :=
  ⟨by decide, rfl, rfl⟩

theorem witness_EveryRequestWordIsAnOperation :
    0xFFFF < 2 ^ Path.narrow.requestBits ∧ 0xFFFFFFFF < 2 ^ Path.wide.requestBits := by decide

theorem witness_RequestFieldsAreTheOperands : 0x7F80 < 2 ^ 16 ∧ 0xFFFFFFFF < 2 ^ 32 := by decide

theorem witness_SignedReadingAndItsInverse :
    (0 < 8) ∧ -(2 : Int) ^ (8 - 1) ≤ -128 ∧ (-128 : Int) ≤ (2 : Int) ^ (8 - 1) - 1 ∧ 7 ≤ 8 := by decide

theorem witness_RoundDivIsTheNearestInteger :
    1 ≤ 7 ∧ Int.fmod 63 (2 ^ 7) < 2 ^ (7 - 1) ∧ 2 ^ (7 - 1) < Int.fmod 65 (2 ^ 7) ∧ Int.fmod 64 (2 ^ 7) = 2 ^ (7 - 1) ∧
    Int.fmod (-64) (2 ^ 7) = 2 ^ (7 - 1) ∧ Tie.halfAway = .halfAway ∧ Tie.halfEven = .halfEven := by decide

theorem witness_RoundDivIsOdd : 1 ≤ 10 := by decide

theorem witness_TieMattersOnlyOnExactHalves :
    1 ≤ 7 ∧ modK 65 7 ≠ 2 ^ (7 - 1) ∧ (modK 64 7 = 2 ^ (7 - 1) ∧ (0 : Int) < 64) ∧
    (modK (-64) 7 = 2 ^ (7 - 1) ∧ (-64 : Int) < 0) := by decide

theorem witness_SignOfTheTrueResult :
    1 ≤ 7 ∧ (0 : Int) < 1 ∧ (-1 : Int) < 0 ∧ roundDiv (|1| * |63|) 7 .halfAway = 0 ∧ roundDiv (|1| * |64|) 7 .halfEven = 0 ∧
    roundDiv (|1| * |64|) 7 .halfAway ≠ 0 := by decide

theorem witness_NarrowReturnsTheRoundedProduct :
    (sint (0x80 : Byte) = -128 ∧ sint (0x80 : Byte) = -128) ∧ ¬ (sint (0x80 : Byte) = -128 ∧ sint (0x81 : Byte) = -128) := by
  decide

theorem witness_OutOfContractSetIsOnePair :
    16129 < sint (0x80 : Byte) * sint (0x81 : Byte) ∧ sint (0x80 : Byte) * sint (0x81 : Byte) = 16256 ∧
    sint (0x80 : Byte) * sint (0x80 : Byte) = 16384 ∧ sint (0x80 : Byte) * sint (0x7F : Byte) = -16256 := by decide

theorem witness_NarrowOutOfContractIsNoFault :
    exec (.narrow 0x80#8 0x80#8) State.reset =
      .next { State.reset with na := 0x80, nb := 0x80, nr := Config.narrowOocResult } := by rfl

theorem witness_NarrowResultsInContractRange :
    ¬ (sint (0x80 : Byte) = -128 ∧ sint (0x81 : Byte) = -128) ∧ ¬ (sint (0x7F : Byte) = -128 ∧ sint (0x80 : Byte) = -128) := by
  decide

theorem witness_NarrowCornerCases :
    ((-128 : Int) ≤ -128 ∧ (-128 : Int) ≤ 127 ∧ (-128 : Int) ≤ -65) ∧ ((-127 : Int) ≤ 127 ∧ (127 : Int) ≤ 127 ∧ (65 : Int) ≤ 127) ∧
    ((-64 : Int) ≤ 64 ∧ (64 : Int) ≤ 64) ∧ ((-63 : Int) ≤ 63 ∧ (63 : Int) ≤ 63) ∧ (126 : Int) % 2 = 0 ∧ (127 : Int) % 2 = 1 := by
  decide

/-- The three clauses at their ends: `t = 32768`, `32767`, `-32767`, `-32768`, whatever the tie rule. -/
theorem witness_WideReturnsTheClampedProduct :
    roundDiv (sint (0x8000 : Half) * sint (0xFC00 : Half)) 10 Config.tie = 32768 ∧
    roundDiv (sint (0x7FFF : Half) * sint (0x0400 : Half)) 10 Config.tie = 32767 ∧
    roundDiv (sint (0x8001 : Half) * sint (0x0400 : Half)) 10 Config.tie = -32767 ∧
    roundDiv (sint (0x0800 : Half) * sint (0xC000 : Half)) 10 Config.tie = -32768 := by decide

theorem witness_PositiveSaturation :
    32767 < wideTrue Config.tie (sint (0x8000 : Half)) (sint (0xFC00 : Half)) ∧
    32767 < wideTrue Config.tie (sint (0x7FFF : Half)) (sint (0x7FFF : Half)) := by decide

theorem witness_InRangeResultIsReturnedUnchanged :
    (-32767 ≤ wideTrue Config.tie (sint (0x8001 : Half)) (sint (0x0400 : Half)) ∧
      wideTrue Config.tie (sint (0x8001 : Half)) (sint (0x0400 : Half)) ≤ 32767) ∧
    (-32767 ≤ wideTrue Config.tie (sint (0x7FFF : Half)) (sint (0x0400 : Half)) ∧
      wideTrue Config.tie (sint (0x7FFF : Half)) (sint (0x0400 : Half)) ≤ 32767) := by decide

theorem witness_NegativeSaturationIsSymmetric :
    wideTrue Config.tie (sint (0x0800 : Half)) (sint (0xC000 : Half)) ≤ -32768 ∧
    wideTrue Config.tie (sint (0x7FFF : Half)) (sint (0x8000 : Half)) ≤ -32768 := by decide

theorem witness_NegativeSaturationUnderEitherReading :
    (wideTrue .halfAway (sint (0x0800 : Half)) (sint (0xC000 : Half)) ≤ -32768 ∧
      ¬ ((sint (0x0800 : Half) = 1024 ∧ sint (0xC000 : Half) = -32768) ∨
        (sint (0x0800 : Half) = -32768 ∧ sint (0xC000 : Half) = 1024)) ∧ NegFloor.pointwise = .pointwise) ∧
    (sint (0x0400 : Half) = 1024 ∧ sint (0x8000 : Half) = -32768) ∧
    -32767 ≤ wideTrue .halfEven (sint (0x8001 : Half)) (sint (0x0400 : Half)) := by decide

theorem witness_TieNeverMovesASaturationBoundary :
    ovfPos .halfEven (sint (0x8000 : Half)) (sint (0xFC00 : Half)) = true ∧
    ovfNeg .halfEven (sint (0x0800 : Half)) (sint (0xC000 : Half)) = true ∧
    exactHalf 10 (sint (1 : Half)) (sint (0x1FF : Half)) = false := by decide

theorem witness_TenPairsReachTheMinimumExactly :
    sint (0x0400 : Half) * sint (0x8000 : Half) = -33554432 ∧ sint (0xF800 : Half) * sint (0x4000 : Half) = -33554432 := by decide

theorem witness_WideCornerCases :
    ((-32768 : Int) ≤ -32768 ∧ (-32768 : Int) ≤ 32767) ∧ ((-32767 : Int) ≤ 32767 ∧ (32767 : Int) ≤ 32767) ∧
    ((-511 : Int) ≤ 511 ∧ (511 : Int) ≤ 511) ∧ (32766 : Int) % 2 = 0 ∧ (32767 : Int) % 2 = 1 := by decide

/-- The clauses of R89: the least sign that may be changed, and under `POINTWISE` a pair that reaches the floor on either
side and one that does not. -/
theorem witness_SignSymmetry :
    sint (0x81 : Byte) ≠ -128 ∧ sint (0x8001 : Half) ≠ -32768 ∧
    (sint (0x0800 : Half) ≠ -32768 ∧ wideTrue .halfAway (sint (0x0800 : Half)) (sint (0xC000 : Half)) ≤ -32768 ∧
      ¬ pinnedPair (sint (0x0800 : Half)) (sint (0xC000 : Half)) = true) ∧
    (sint (0x0800 : Half) ≠ -32768 ∧ wideTrue .halfAway (sint (-(0x0800 : Half))) (sint (0x4000 : Half)) ≤ -32768 ∧
      ¬ pinnedPair (sint (-(0x0800 : Half))) (sint (0x4000 : Half)) = true) ∧
    (¬ wideTrue .halfAway (sint (1 : Half)) (sint (1 : Half)) ≤ -32768 ∧
      ¬ wideTrue .halfAway (sint (-(1 : Half))) (sint (1 : Half)) ≤ -32768) ∧
    (wideTrue .halfAway (sint (0xC000 : Half)) (sint (0x0800 : Half)) ≤ -32768 ∧
      ¬ pinnedPair (sint (0xC000 : Half)) (sint (0x0800 : Half)) = true) ∧
    (wideTrue .halfAway (sint (0x4000 : Half)) (sint (-(0x0800 : Half))) ≤ -32768 ∧
      ¬ pinnedPair (sint (0x4000 : Half)) (sint (-(0x0800 : Half))) = true) := by decide

theorem witness_NarrowMatchesItsOracle :
    narrowReference Config.tie (sint (0x80 : Byte)) (sint (0x81 : Byte)) = some 127 ∧
    narrowReference Config.tie (sint (0x80 : Byte)) (sint (0x80 : Byte)) = none := by decide

theorem witness_NarrowDatapathComputesNarrow :
    (sint (0x80 : Byte) = -128 ∧ sint (0x80 : Byte) = -128) ∧ ¬ (sint (0x81 : Byte) = -128 ∧ sint (0x80 : Byte) = -128) := by
  decide

theorem witness_WideDatapathComputesWide :
    signsDiffer (0x8000 : Half) (0x8000 : Half) = false ∧ signsDiffer (0x8000 : Half) (0x7FFF : Half) = true := by decide

theorem witness_OperationsAreOrderIndependent :
    [Instr.narrow 1 2, .wide 3 4].Perm [.wide 3 4, .narrow 1 2] := by decide

theorem witness_StepPerformsTheDecodedInstruction :
    (hostWith [.request .narrow 0x3240] []).pending = .request .narrow 0x3240 :: [] ∧
    decode .narrow 0x3240 = .ok (.narrow 50 64) ∧ decodeTableWord 32 0x04008000 = some (.wide 0x0400 0x8000) :=
  ⟨rfl, rfl, rfl⟩

theorem witness_StepPerformsALine :
    ((hostWith [.line ⟨.narrow, 0, .var 5, .lit (.dec 64)⟩] [(5, .narrow 50)]).pending =
        .line ⟨.narrow, 0, .var 5, .lit (.dec 64)⟩ :: [] ∧
      narrowOperand [(5, .narrow 50)] (.var 5) = .ok 50 ∧ narrowOperand [(5, .narrow 50)] (.lit (.dec 64)) = .ok 64) ∧
    ((hostWith [.line ⟨.wide, 5, .var 5, .lit .wideMin⟩] [(5, .wide 50)]).pending =
        .line ⟨.wide, 5, .var 5, .lit .wideMin⟩ :: [] ∧
      wideOperand [(5, .wide 50)] (.var 5) = .ok 50 ∧ wideOperand [(5, .wide 50)] (.lit .wideMin) = .ok 0x8000) :=
  ⟨⟨rfl, rfl, rfl⟩, ⟨rfl, rfl, rfl⟩⟩

theorem witness_OperandsDenoteTheirValues :
    (-128 ≤ (-128 : Int) ∧ (-128 : Int) ≤ 127) ∧ (-32768 ≤ (32767 : Int) ∧ (32767 : Int) ≤ 32767) ∧ 0xFF < 2 ^ 8 ∧
    0xFFFF < 2 ^ 16 ∧ ([(5, .narrow 50)] : Vars).lookup 5 = some (.narrow 50) ∧
    ([(5, .wide 50)] : Vars).lookup 5 = some (.wide 50) := by decide

/-- Each form of `OperandError` at the end of its range, a sound first operand before a second one in error, and a word too
wide by one bit. -/
theorem witness_ProgramErrorsAreRefused :
    (hostWith [.line ⟨.narrow, 0, .lit (.dec 127), .lit (.dec 128)⟩] []).pending =
      .line ⟨.narrow, 0, .lit (.dec 127), .lit (.dec 128)⟩ :: [] ∧
    OperandError [] .narrow (.lit (.dec 128)) (.literalOutOfDomain .narrow (.dec 128)) ∧
    OperandError [] .wide (.lit (.dec (-32769))) (.literalOutOfDomain .wide (.dec (-32769))) ∧
    OperandError [] .narrow (.lit (.hex 0x100)) (.literalOutOfDomain .narrow (.hex 0x100)) ∧
    OperandError [] .narrow (.lit .wideMin) (.literalOutOfDomain .narrow .wideMin) ∧
    OperandError [] .narrow (.lit .wideMax) (.literalOutOfDomain .narrow .wideMax) ∧
    OperandError [(5, .wide 50)] .wide (.var 6) (.hostVariableUnwritten 6) ∧
    OperandError [(5, .wide 50)] .narrow (.var 5) (.hostVariableOfOtherPath 5) ∧
    (∀ r, ¬ OperandError [] .narrow (.lit (.dec 127)) r) ∧
    ((hostWith [.request .narrow 0x10000] []).pending = .request .narrow 0x10000 :: [] ∧
      2 ^ Path.narrow.requestBits ≤ 0x10000) ∧
    step (hostWith [.request .narrow 0x10000] []) = .refused (.undecodable (.wordTooWide .narrow 0x10000)) := by
  refine ⟨rfl, .inl ⟨128, rfl, by decide, rfl⟩, .inl ⟨-32769, rfl, by decide, rfl⟩, .inr (.inl ⟨0x100, rfl, by decide, rfl⟩),
    .inr (.inr (.inl ⟨rfl, rfl, rfl⟩)), .inr (.inr (.inr (.inl ⟨rfl, rfl, rfl⟩))),
    .inr (.inr (.inr (.inr (.inl ⟨6, rfl, rfl, rfl⟩)))),
    .inr (.inr (.inr (.inr (.inr ⟨5, .wide 50, rfl, rfl, by decide, rfl⟩)))), ?_, ⟨rfl, by decide⟩, rfl⟩
  intro r
  simp [OperandError, Path.least, Path.greatest]

theorem witness_WellFormedProgramIsNeverRefused :
    (hostWith [.line ⟨.narrow, 5, .lit (.dec (-128)), .lit (.dec (-128))⟩, .line ⟨.narrow, 6, .var 5, .var 5⟩,
      .request .wide 0x80008000] []).ProgramOk := by decide

theorem witness_WellFormedProgramRunsToItsEnd :
    (hostWith [.line ⟨.wide, 5, .var 5, .lit .wideMax⟩, .request .narrow 0x8080] [(5, .wide 1)]).ProgramOk := by decide

/-- A state whose ports agree and that can take a step which changes both ports and variables. -/
theorem witness_StepKeepsThePortsInAgreement :
    let s : State := { hostWith [.line ⟨.wide, 5, .lit (.dec 400), .lit (.dec 512)⟩] [(5, .wide 1), (9, .narrow 2)] with
      na := 50, nb := 64, nr := 25 }
    s.PortsAgree ∧ s.VarsCanonical ∧
      step s = .next { hostWith [] [(5, .wide 200), (9, .narrow 2)] with
        na := 50, nb := 64, nr := 25, wa := 400, wb := 512, wr := 200 } :=
  ⟨by decide, by decide, rfl⟩

theorem witness_StepNeverYieldsTheWideMinimum :
    let s : State := hostWith [.line ⟨.wide, 5, .lit (.dec 1024), .lit .wideMin⟩] [(5, .wide 1)]
    s.wr ≠ 0x8000#16 ∧ (∀ e ∈ s.vars, NotWideMIN e.2) ∧
      step s = .next { hostWith [] [(5, .wide 0x8001)] with wa := 0x0400, wb := 0x8000, wr := 0x8001 } :=
  ⟨by decide, by decide, rfl⟩

end Sys2Proof.Tests
end

/-!
## Proofs: the two paths as pure functions (spec/10_state.md R29, R32)

The equations of `exec` say once which ports an instruction writes and with what. From them follow what an operation leaves
unchanged, that operations of different paths commute, and that a run's responses are one function mapped over its pairs.
-/

namespace Sys2Proof.Machine

/-! ### What an instruction does -/

/-- `NARROW` in every state: its own path's ports and nothing else (spec/40_narrow_path.md R59). -/
theorem exec_narrow (a b : Byte) (s : State) :
    exec (.narrow a b) s =
      .next ((s.presentNarrow a b).driveNr (narrowResult Config.tie Config.narrowOocResult a b)) := rfl

/-- `WIDE` in every state: its own path's ports and nothing else (spec/41_wide_path.md R69). -/
theorem exec_wide (a b : Half) (s : State) :
    exec (.wide a b) s = .next ((s.presentWide a b).driveWr (wideResult Config.tie wideNegFloor a b)) := rfl

/-- The equation of `exec` read backwards: the one state a `NARROW` can lead to. -/
theorem eq_of_exec_narrow {a b : Byte} {s t : State} (h : exec (.narrow a b) s = .next t) :
    t = (s.presentNarrow a b).driveNr (narrowResult Config.tie Config.narrowOocResult a b) :=
  (Host.Outcome.next.inj ((exec_narrow a b s).symm.trans h)).symm

/-- The equation of `exec` read backwards: the one state a `WIDE` can lead to. -/
theorem eq_of_exec_wide {a b : Half} {s t : State} (h : exec (.wide a b) s = .next t) :
    t = (s.presentWide a b).driveWr (wideResult Config.tie wideNegFloor a b) :=
  (Host.Outcome.next.inj ((exec_wide a b s).symm.trans h)).symm

/-- No instruction faults or is refused, in any state (spec/41_wide_path.md R78). -/
theorem exec_completes (i : Instr) (s : State) : ∃ t : State, exec i s = .next t := by
  cases i with
  | narrow a b => exact ⟨_, exec_narrow a b s⟩
  | wide a b => exact ⟨_, exec_wide a b s⟩

/-! ### Results and frames -/

/-- The result on `nr` does not mention the state before. -/
theorem nr_of_exec_narrow {a b : Byte} {s t : State} (h : exec (.narrow a b) s = .next t) :
    t.nr = narrowResult Config.tie Config.narrowOocResult a b := by
  simp [eq_of_exec_narrow h]

/-- The result on `wr` does not mention the state before. -/
theorem wr_of_exec_wide {a b : Half} {s t : State} (h : exec (.wide a b) s = .next t) :
    t.wr = wideResult Config.tie wideNegFloor a b := by
  simp [eq_of_exec_wide h]

theorem exec_narrow_keeps_wide_ports {a b : Byte} {s t : State} (h : exec (.narrow a b) s = .next t) :
    t.wa = s.wa ∧ t.wb = s.wb ∧ t.wr = s.wr := by
  simp [eq_of_exec_narrow h]

theorem exec_wide_keeps_narrow_ports {a b : Half} {s t : State} (h : exec (.wide a b) s = .next t) :
    t.na = s.na ∧ t.nb = s.nb ∧ t.nr = s.nr := by
  simp [eq_of_exec_wide h]

/-- The paths write disjoint ports, so the two orders of two operations lead to one state. -/
theorem exec_narrow_wide_comm {a b : Byte} {c d : Half} {s n w : State}
    (hn : exec (.narrow a b) s = .next n) (hw : exec (.wide c d) s = .next w) :
    ∃ t : State, exec (.wide c d) n = .next t ∧ exec (.narrow a b) w = .next t := by
  obtain rfl := eq_of_exec_narrow hn
  obtain rfl := eq_of_exec_wide hw
  exact ⟨_, exec_wide c d _, exec_narrow a b _⟩

/-! ### The response as a function of the pair -/

/-- The response of an instruction, with no state to look at (spec/10_state.md R32). -/
def pairResponse : Instr → Response
  | .narrow a b => .narrow (narrowResult Config.tie Config.narrowOocResult a b)
  | .wide a b => .wide (wideResult Config.tie wideNegFloor a b)

/-- Whatever the state, what the host reads after an instruction is `pairResponse` of it. -/
theorem response_of_exec {i : Instr} {s t : State} (h : exec i s = .next t) :
    t.response i.path = pairResponse i := by
  cases i with
  | narrow a b => simp [pairResponse, nr_of_exec_narrow h]
  | wide a b => simp [pairResponse, wr_of_exec_wide h]

/-- A run from any state answers each instruction by `pairResponse`, and is never cut short. -/
theorem responses_eq_map_pairResponse (l : List Instr) (s : State) : responses l s = l.map pairResponse := by
  induction l generalizing s with
  | nil => rfl
  | cons i rest ih =>
    obtain ⟨t, ht⟩ := exec_completes i s
    simp [responses, ht, response_of_exec ht, ih t]

/-! ### The obligations -/

/-- Settles O34: the one response is `pairResponse i`, since a run's responses are that function mapped over its list. -/
theorem resultDependsOnThePairAlone : Obligations.ResultDependsOnThePairAlone := by
  intro i
  refine ⟨pairResponse i, fun s earlier => ⟨?_, ?_⟩⟩
  · simp [responses_eq_map_pairResponse]
  · simp [responses_eq_map_pairResponse]

/-- Settles O35, from the result and frame lemmas of each path and `exec_narrow_wide_comm`. -/
theorem pathsDoNotInteract : Obligations.PathsDoNotInteract := by
  intro a b c d s
  obtain ⟨n, hn⟩ := exec_completes (.narrow a b) s
  obtain ⟨w, hw⟩ := exec_completes (.wide c d) s
  obtain ⟨t, hnt, hwt⟩ := exec_narrow_wide_comm hn hw
  have same_results : ∀ s' : State, ∃ n' w' : State, exec (.narrow a b) s' = .next n' ∧ n'.nr = n.nr ∧
      exec (.wide c d) s' = .next w' ∧ w'.wr = w.wr := by
    intro s'
    obtain ⟨n', hn'⟩ := exec_completes (.narrow a b) s'
    obtain ⟨w', hw'⟩ := exec_completes (.wide c d) s'
    exact ⟨n', w', hn', (nr_of_exec_narrow hn').trans (nr_of_exec_narrow hn).symm,
      hw', (wr_of_exec_wide hw').trans (wr_of_exec_wide hw).symm⟩
  obtain ⟨hwa, hwb, hwr⟩ := exec_narrow_keeps_wide_ports hn
  obtain ⟨hna, hnb, hnr⟩ := exec_wide_keeps_narrow_ports hw
  obtain ⟨-, -, htnr⟩ := exec_wide_keeps_narrow_ports hnt
  obtain ⟨-, -, htwr⟩ := exec_narrow_keeps_wide_ports hwt
  exact ⟨n, w, t, same_results, hn, hw, hwa, hwb, hwr, hna, hnb, hnr, hnt, hwt, htnr, htwr⟩

end Sys2Proof.Machine

/-!
## Proofs: order independence (spec/20_memory.md R39)

A run's responses are `pairResponse` mapped over its list, and so is what each operation returns alone. A permutation of the
list then permutes the responses, whatever the two starting states are.
-/

namespace Sys2Proof.Machine

/-- What an operation returns on a fresh unit is `pairResponse` of it. -/
theorem respond_eq_pairResponse (i : Instr) : respond i = some (pairResponse i) := by
  obtain ⟨t, ht⟩ := exec_completes i State.reset
  simp [respond, ht, response_of_exec ht]

/-- A run from any state gives each operation the response it has alone, and is never cut short. -/
theorem responses_eq_map_respond (l : List Instr) (s : State) : (responses l s).map some = l.map respond := by
  simp [responses_eq_map_pairResponse, respond_eq_pairResponse]

/-- Permuting a list of operations permutes their responses, from any two states. -/
theorem responses_perm {l l' : List Instr} (h : l.Perm l') (s s' : State) :
    (responses l s).Perm (responses l' s') := by
  rw [responses_eq_map_pairResponse, responses_eq_map_pairResponse]
  exact h.map pairResponse

/-- Settles O36: both a run's responses and the responses alone are `pairResponse` of the operations, so neither the
order nor the state enters. -/
theorem operationsAreOrderIndependent : Obligations.OperationsAreOrderIndependent :=
  ⟨responses_eq_map_respond, fun _ _ s s' h => responses_perm h s s'⟩

end Sys2Proof.Machine

/-!
## Proofs: every request word is an operation (spec/30_encoding.md R53)

The decoder is total on the words of a path's width and answers an instruction of that path; `exec_completes` does the rest.
The one word singled out, `0x8080`, is the encoding of the out-of-contract pair.
-/

namespace Sys2Proof.Machine

/-- The decoder is total on the words of a format's width, and the path alone selects the operation
(spec/30_encoding.md R50, R53). -/
theorem decode_total {p : Path} {word : Nat} (h : word < 2 ^ p.requestBits) :
    ∃ i : Instr, decode p word = .ok i ∧ i.path = p := by
  cases p with
  | narrow => exact ⟨_, decode_narrow_of_lt h, rfl⟩
  | wide => exact ⟨_, decode_wide_of_lt h, rfl⟩

/-- The two fields of the word `0x8080` (spec/30_encoding.md R48). -/
theorem decode_narrow_0x8080 : decode .narrow 0x8080 = .ok (.narrow 0x80 0x80) := rfl

/-- On the pair `(-128, -128)` the narrow function is its out-of-contract byte (spec/40_narrow_path.md R62). -/
theorem narrowResult_outOfContract (tie : Tie) (ooc : Byte) {a b : Byte} (ha : sint a = -128) (hb : sint b = -128) :
    narrowResult tie ooc a b = ooc := by
  obtain ⟨-, h⟩ | ⟨inContract, -⟩ := narrowResult_cases tie ooc a b
  · exact h
  · exact absurd ⟨ha, hb⟩ inContract

/-- What the host reads after the operation of the word `0x8080` (spec/30_encoding.md R53). -/
theorem pairResponse_narrow_0x80_0x80 :
    pairResponse (.narrow 0x80 0x80) = .narrow Config.narrowOocResult :=
  congrArg Response.narrow (narrowResult_outOfContract Config.tie Config.narrowOocResult (by decide) (by decide))

/-- Settles O2: `decode_total` gives the instruction and `exec_completes` its next state; the response to `0x8080` is
`pairResponse` of the out-of-contract pair. -/
theorem everyRequestWordIsAnOperation : Obligations.EveryRequestWordIsAnOperation := by
  refine ⟨fun p word hword => ?_, .narrow 0x80 0x80, decode_narrow_0x8080, fun s => ?_⟩
  · obtain ⟨i, hdecode, hpath⟩ := decode_total hword
    exact ⟨i, hdecode, hpath, exec_completes i⟩
  · obtain ⟨t, ht⟩ := exec_completes (.narrow 0x80 0x80) s
    exact ⟨t, ht, (response_of_exec ht).trans pairResponse_narrow_0x80_0x80⟩

end Sys2Proof.Machine

/-!
## Proofs: the narrow path (spec/40_narrow_path.md R59, R65)

Every in-contract product has magnitude at most `16256 = 127 * 128`. Rounding moves no quotient past an integer bound that
the exact quotient meets, so the true result lies in `[-127, 127]` and fits the port.
-/

namespace Sys2Proof.Machine

/-! ### Bounds -/

/-- An integer bound on `P / 2^s` is a bound on `RoundDiv` too (spec/00_scope.md R16). -/
theorem roundDiv_bounds {P lo hi : Int} {s : Nat} (hlo : 2 ^ s * lo ≤ P) (hhi : P ≤ 2 ^ s * hi) (tie : Tie) :
    lo ≤ roundDiv P s tie ∧ roundDiv P s tie ≤ hi := by
  have hK : (0 : Int) < 2 ^ s := by positivity
  have hH : (0 : Int) < 2 ^ (s - 1) := by positivity
  have hqr := divK_modK P s
  have hr0 := modK_nonneg P s
  have hq_lo : lo ≤ divK P s := Int.le_ediv_of_mul_le hK (by linarith)
  have hq_hi : divK P s ≤ hi := le_of_mul_le_mul_left (by linarith) hK
  -- only a positive remainder is rounded up, and then the quotient lies strictly below `hi`
  have hq_lt (hr : 0 < modK P s) : divK P s < hi := lt_of_mul_lt_mul_left (by linarith) hK.le
  rcases roundDiv_cases P s tie with ⟨-, h⟩ | ⟨hr, h⟩ | ⟨hr, ⟨-, -, h⟩ | ⟨-, -, h⟩ | ⟨-, -, h⟩ | ⟨-, -, h⟩⟩ <;> omega

/-- Off the pair `(-128, -128)` one operand has magnitude at most 127 (spec/40_narrow_path.md R61). -/
theorem abs_mul_le_of_inContract {a b : Byte} (h : ¬ (sint a = -128 ∧ sint b = -128)) :
    |sint a * sint b| ≤ 16256 := by
  obtain ⟨ha, ha'⟩ := sint_narrow_range a
  obtain ⟨hb, hb'⟩ := sint_narrow_range b
  rw [abs_mul]
  by_cases haMin : sint a = -128
  · have hA : |sint a| ≤ 128 := abs_le.mpr (by omega)
    have hB : |sint b| ≤ 127 := abs_le.mpr (by omega)
    exact mul_le_mul hA hB (abs_nonneg _) (by norm_num)
  · have hA : |sint a| ≤ 127 := abs_le.mpr (by omega)
    have hB : |sint b| ≤ 128 := abs_le.mpr (by omega)
    exact mul_le_mul hA hB (abs_nonneg _) (by norm_num)

/-- The range of the narrow product (spec/40_narrow_path.md R59). -/
theorem narrow_product_range (a b : Byte) : -16256 ≤ sint a * sint b ∧ sint a * sint b ≤ 16384 := by
  by_cases h : sint a = -128 ∧ sint b = -128
  · obtain ⟨ha, hb⟩ := h
    simp [ha, hb]
  · obtain ⟨hlo, hhi⟩ := abs_le.mp (abs_mul_le_of_inContract h)
    omega

/-- The true result of every in-contract pair lies in `[-127, 127]` (spec/40_narrow_path.md R64). -/
theorem narrow_roundDiv_range (tie : Tie) {a b : Byte} (h : ¬ (sint a = -128 ∧ sint b = -128)) :
    -127 ≤ roundDiv (sint a * sint b) 7 tie ∧ roundDiv (sint a * sint b) 7 tie ≤ 127 := by
  obtain ⟨hlo, hhi⟩ := abs_le.mp (abs_mul_le_of_inContract h)
  exact roundDiv_bounds (by omega) (by omega) tie

/-! ### The result -/

/-- In contract the rounded product fits the port, so the result reads back as that integer (spec/40_narrow_path.md R59). -/
theorem sint_narrowResult (tie : Tie) (ooc : Byte) {a b : Byte} (h : ¬ (sint a = -128 ∧ sint b = -128)) :
    sint (narrowResult tie ooc a b) = roundDiv (sint a * sint b) 7 tie := by
  obtain ⟨hlo, hhi⟩ := narrow_roundDiv_range tie h
  obtain ⟨hOut, -⟩ | ⟨-, hres⟩ := narrowResult_cases tie ooc a b
  · exact absurd hOut h
  · rw [hres, sint_bits_narrow _ (by omega) (by omega)]

/-- The two fields of the word `0x3240` (spec/30_encoding.md R48). -/
theorem decode_narrow_0x3240 : decode .narrow 0x3240 = .ok (.narrow 0x32 0x40) := rfl

/-- The worked example of spec/40_narrow_path.md R59: `50 * 64 = 25 * 128`, so no rounding takes place. -/
theorem pairResponse_narrow_0x32_0x40 : pairResponse (.narrow 0x32 0x40) = .narrow 0x19 := by decide

/-! ### The obligations -/

/-- Settles O10: `exec_narrow` gives the next state, with `narrowResult_outOfContract` for the one pair and
`sint_narrowResult` for every other. -/
theorem narrowReturnsTheRoundedProduct : Obligations.NarrowReturnsTheRoundedProduct := by
  refine ⟨fun a b s => ?_, fun s => ?_⟩
  · obtain ⟨hlo, hhi⟩ := narrow_product_range a b
    refine ⟨_, exec_narrow a b s, hlo, hhi, ?_⟩
    split
    case isTrue h =>
      obtain ⟨ha, hb⟩ := h
      exact narrowResult_outOfContract _ _ ha hb
    case isFalse h =>
      have hv := sint_narrowResult Config.tie Config.narrowOocResult h
      exact ⟨hv, by simpa only [hv] using narrow_roundDiv_range Config.tie h⟩
  · obtain ⟨t, ht⟩ := exec_completes (.narrow 0x32 0x40) s
    exact ⟨_, t, decode_narrow_0x3240, ht, (response_of_exec ht).trans pairResponse_narrow_0x32_0x40⟩

/-- Settles O33, which is `exec_completes`. -/
theorem everyOperationCompletes : Obligations.EveryOperationCompletes := exec_completes

end Sys2Proof.Machine

/-!
## Proofs: the wide path in range, saturated and at the pinned pairs (spec/41_wide_path.md R71, R72, R75)

The three cases of R69, each read off `wideResult_cases` once, say what stands on `wr`. The examples follow from their products,
under either tie rule: a multiple of 1024 needs no rounding, and the one exact half among them lies above an odd quotient.
-/

namespace Sys2Proof.Machine

/-! ### The true result of a product -/

/-- The wide true result is the rounded quotient by `1024 = 2^10` (spec/00_scope.md R20). -/
theorem wideTrue_eq_roundDiv (tie : Tie) (a b : Int) : wideTrue tie a b = roundDiv (a * b) 10 tie := rfl

/-- A product that 1024 divides needs no rounding. -/
theorem wideTrue_of_mul_eq {a b t : Int} (h : a * b = 1024 * t) (tie : Tie) : wideTrue tie a b = t := by
  obtain ⟨hlo, hhi⟩ := roundDiv_bounds (s := 10) (lo := t) (hi := t) h.ge h.le tie
  exact le_antisymm hhi hlo

/-- An exact half above an odd quotient that is not negative goes up under either tie rule: away from zero, and to the even
neighbour (spec/00_scope.md R16). -/
theorem wideTrue_of_mul_eq_half {a b q : Int} (h : a * b = 1024 * q + 512) (hq : 0 ≤ q) (odd : q % 2 = 1) (tie : Tie) :
    wideTrue tie a b = q + 1 := by
  rw [wideTrue_eq_roundDiv]
  have hqr := divK_modK (a * b) 10
  have hr0 := modK_nonneg (a * b) 10
  have hrK := modK_lt (a * b) 10
  have hdiv : divK (a * b) 10 = q := by omega
  have hmod : modK (a * b) 10 = 512 := by omega
  rcases roundDiv_cases (a * b) 10 tie with ⟨hr, -⟩ | ⟨-, hup⟩ |
    ⟨-, ⟨-, -, hup⟩ | ⟨-, hneg, -⟩ | ⟨-, even, -⟩ | ⟨-, -, hup⟩⟩
  · omega
  · rw [hup, hdiv]
  · rw [hup, hdiv]
  · omega
  · omega
  · rw [hup, hdiv]

/-- Every product from `32768 * 1024` on is too large for the path (spec/41_wide_path.md R71). -/
theorem lt_wideTrue_of_le_mul {a b : Int} (h : 1024 * 32768 ≤ a * b) (tie : Tie) : 32767 < wideTrue tie a b := by
  obtain ⟨hlo, -⟩ := roundDiv_bounds (s := 10) (lo := 32768) (hi := a * b) h (by omega) tie
  exact Int.lt_of_add_one_le hlo

/-! ### The three cases of the result -/

/-- The result port above the range (spec/41_wide_path.md R71). -/
theorem wideResult_of_lt_wideTrue {tie : Tie} {a b : Half} (h : 32767 < wideTrue tie (sint a) (sint b))
    (floor : NegFloor) : wideResult tie floor a b = bits 16 32767 := by
  rw [wideTrue_eq_roundDiv] at h
  obtain ⟨-, hres⟩ | ⟨hle, -⟩ | ⟨-, hle, -⟩ := wideResult_cases tie floor a b
  · exact hres
  · omega
  · omega

/-- The result port within the range (spec/41_wide_path.md R72). -/
theorem wideResult_of_wideTrue_mem {tie : Tie} {a b : Half} (hlo : -32767 ≤ wideTrue tie (sint a) (sint b))
    (hhi : wideTrue tie (sint a) (sint b) ≤ 32767) (floor : NegFloor) :
    wideResult tie floor a b = bits 16 (wideTrue tie (sint a) (sint b)) := by
  rw [wideTrue_eq_roundDiv] at hlo hhi ⊢
  obtain ⟨hlt, -⟩ | ⟨hle, -⟩ | ⟨-, -, hres⟩ := wideResult_cases tie floor a b
  · omega
  · omega
  · exact hres

/-- The result port below the range (spec/41_wide_path.md R69). -/
theorem wideResult_of_wideTrue_le {tie : Tie} {a b : Half} (h : wideTrue tie (sint a) (sint b) ≤ -32768)
    (floor : NegFloor) : wideResult tie floor a b = bits 16 (wideFloor floor (sint a) (sint b)) := by
  rw [wideTrue_eq_roundDiv] at h
  obtain ⟨hlt, -⟩ | ⟨-, hres⟩ | ⟨hge, -, -⟩ := wideResult_cases tie floor a b
  · omega
  · exact hres
  · omega

/-- The pinned pairs give `-32767` under either value of `WIDE_NEG_FLOOR` (spec/41_wide_path.md R69, R74). -/
theorem wideFloor_of_pinnedPair {a b : Int} (h : pinnedPair a b = true) (floor : NegFloor) :
    wideFloor floor a b = -32767 := by
  obtain ⟨-, hval⟩ | ⟨-, -, hval⟩ | ⟨-, hnot, -⟩ := wideFloor_cases floor a b
  · exact hval
  · exact hval
  · exact absurd (h.symm.trans hnot) (by decide)

/-! ### Points of `wide(a, b)` on integers of the wide domain -/

/-- A true result above the range saturates (spec/41_wide_path.md R71). -/
theorem wideOf_of_lt_wideTrue {tie : Tie} {a b : Int} (ha : -32768 ≤ a ∧ a ≤ 32767) (hb : -32768 ≤ b ∧ b ≤ 32767)
    (h : 32767 < wideTrue tie a b) (floor : NegFloor) : wideOf tie floor a b = 32767 := by
  rw [← sint_bits_wide a ha.1 ha.2, ← sint_bits_wide b hb.1 hb.2] at h
  rw [wideOf, wideResult_of_lt_wideTrue h floor, sint_bits_wide _ (by norm_num) (by norm_num)]

/-- A true result `t` within the range is the result (spec/41_wide_path.md R72). -/
theorem wideOf_of_wideTrue_eq {tie : Tie} {a b t : Int} (ha : -32768 ≤ a ∧ a ≤ 32767) (hb : -32768 ≤ b ∧ b ≤ 32767)
    (h : wideTrue tie a b = t) (ht : -32767 ≤ t ∧ t ≤ 32767) (floor : NegFloor) : wideOf tie floor a b = t := by
  rw [← sint_bits_wide a ha.1 ha.2, ← sint_bits_wide b hb.1 hb.2] at h
  obtain ⟨hlo, hhi⟩ := ht
  rw [wideOf, wideResult_of_wideTrue_mem (by omega) (by omega) floor, h, sint_bits_wide t (by omega) hhi]

/-- Both pinned pairs have the true result `-32768` and give `-32767` (spec/41_wide_path.md R75). -/
theorem wideOf_of_pinnedPair {a b : Int} (h : pinnedPair a b = true) (tie : Tie) (floor : NegFloor) :
    wideOf tie floor a b = -32767 := by
  have hpair := (pinnedPair_iff a b).mp h
  have hT : wideTrue tie a b = -32768 := by
    obtain ⟨rfl, rfl⟩ | ⟨rfl, rfl⟩ := hpair
    · exact wideTrue_of_mul_eq (by norm_num) tie
    · exact wideTrue_of_mul_eq (by norm_num) tie
  have hsa : sint (bits 16 a) = a := sint_bits_wide a (by omega) (by omega)
  have hsb : sint (bits 16 b) = b := sint_bits_wide b (by omega) (by omega)
  rw [wideOf, wideResult_of_wideTrue_le (by rw [hsa, hsb, hT]) floor, hsa, hsb, wideFloor_of_pinnedPair h floor,
    sint_bits_wide _ (by norm_num) (by norm_num)]

/-! ### The obligations -/

/-- Settles O17: `wideResult_of_lt_wideTrue` at the state `exec_wide` gives, and the examples by their products. The last of
them, `32640 * 1028`, is the exact half above `32767`, which both tie rules round up. -/
theorem positiveSaturation : Obligations.PositiveSaturation := by
  refine ⟨fun a b s h => ⟨_, exec_wide a b s, ?_⟩, fun tie floor => ?_⟩
  · simp only [State.driveWr_wr, wideResult_of_lt_wideTrue h wideNegFloor]
    decide
  · have hLeast : wideTrue tie (-32768) (-32768) = 1048576 := wideTrue_of_mul_eq (by norm_num) tie
    have hGreatest : 32767 < wideTrue tie 32767 32767 := lt_wideTrue_of_le_mul (by norm_num) tie
    have h8000 : wideTrue tie 8000 8000 = 62500 := wideTrue_of_mul_eq (by norm_num) tie
    have h24576 : wideTrue tie 24576 24576 = 589824 := wideTrue_of_mul_eq (by norm_num) tie
    have hExact : wideTrue tie (-32768) (-1024) = 32768 := wideTrue_of_mul_eq (by norm_num) tie
    have hHalf : wideTrue tie 32640 1028 = 32767 + 1 :=
      wideTrue_of_mul_eq_half (by norm_num) (by norm_num) (by norm_num) tie
    exact ⟨hLeast, wideOf_of_lt_wideTrue (by norm_num) (by norm_num) (by omega) floor,
      wideOf_of_lt_wideTrue (by norm_num) (by norm_num) hGreatest floor,
      h8000, wideOf_of_lt_wideTrue (by norm_num) (by norm_num) (by omega) floor,
      h24576, wideOf_of_lt_wideTrue (by norm_num) (by norm_num) (by omega) floor,
      hExact, wideOf_of_lt_wideTrue (by norm_num) (by norm_num) (by omega) floor,
      hHalf, wideOf_of_lt_wideTrue (by norm_num) (by norm_num) (by omega) floor⟩

/-- Settles O18: `wideResult_of_wideTrue_mem` at the state `exec_wide` gives, and the examples by their products, which 1024
divides. -/
theorem inRangeResultIsReturnedUnchanged : Obligations.InRangeResultIsReturnedUnchanged := by
  refine ⟨fun a b s hlo hhi => ⟨_, exec_wide a b s, ?_⟩, fun tie floor => ?_⟩
  · simp only [State.driveWr_wr, wideResult_of_wideTrue_mem hlo hhi wideNegFloor]
    exact ⟨trivial, sint_bits_wide _ (by omega) hhi⟩
  · have hGreatest : wideTrue tie 32767 1024 = 32767 := wideTrue_of_mul_eq (by norm_num) tie
    have hLeast : wideTrue tie (-32767) 1024 = -32767 := wideTrue_of_mul_eq (by norm_num) tie
    have h200 : wideTrue tie 400 512 = 200 := wideTrue_of_mul_eq (by norm_num) tie
    have hNeg200 : wideTrue tie (-400) 512 = -200 := wideTrue_of_mul_eq (by norm_num) tie
    have hNeg3200 : wideTrue tie (-32768) 100 = -3200 := wideTrue_of_mul_eq (by norm_num) tie
    exact ⟨wideOf_of_wideTrue_eq (by norm_num) (by norm_num) hGreatest (by norm_num) floor, hGreatest,
      wideOf_of_wideTrue_eq (by norm_num) (by norm_num) hLeast (by norm_num) floor, hLeast,
      wideOf_of_wideTrue_eq (by norm_num) (by norm_num) h200 (by norm_num) floor,
      wideOf_of_wideTrue_eq (by norm_num) (by norm_num) hNeg200 (by norm_num) floor,
      wideOf_of_wideTrue_eq (by norm_num) (by norm_num) hNeg3200 (by norm_num) floor⟩

/-- Settles O21: the saturated points are examples of O17, the unchanged ones of O18, and the two at the floor are the
pinned pairs. -/
theorem pinnedPoints : Obligations.PinnedPoints := by
  intro tie floor
  obtain ⟨-, hLeast, hGreatest, -, h8000, -, h24576, -⟩ := positiveSaturation.2 tie floor
  obtain ⟨-, -, -, -, h200, hNeg200, hNeg3200⟩ := inRangeResultIsReturnedUnchanged.2 tie floor
  exact ⟨hGreatest, hLeast, wideOf_of_pinnedPair (by decide) tie floor, wideOf_of_pinnedPair (by decide) tie floor,
    h8000, h24576, h200, hNeg200, hNeg3200⟩

end Sys2Proof.Machine

/-!
## Proofs: the arithmetic laws (spec/42_arithmetic_laws.md R86, R88, R89)

On the wide path everything goes through the oracle: `sint_wideResult` reads the result port as `wideReference`, a clamp of the
true result, and commutativity and sign symmetry are then facts about integers. Their one idea is that `RoundDiv` is odd:
changing the sign of a dividend exchanges the two sides of an exact half, and neither tie rule tells the sides apart.
-/

namespace Sys2Proof.Machine

/-! ### Rounding division by the side of the half -/

theorem roundDiv_of_modK_lt {P : Int} {s : Nat} (h : modK P s < 2 ^ (s - 1)) (tie : Tie) :
    roundDiv P s tie = divK P s := if_pos h

theorem roundDiv_of_lt_modK {P : Int} {s : Nat} (h : 2 ^ (s - 1) < modK P s) (tie : Tie) :
    roundDiv P s tie = divK P s + 1 := by
  simp [roundDiv, h, not_lt_of_gt h]

theorem roundDiv_halfAway_of_modK_eq {P : Int} {s : Nat} (h : modK P s = 2 ^ (s - 1)) :
    roundDiv P s .halfAway = if 0 ≤ P then divK P s + 1 else divK P s := by
  simp [roundDiv, h]

theorem roundDiv_halfEven_of_modK_eq {P : Int} {s : Nat} (h : modK P s = 2 ^ (s - 1)) :
    roundDiv P s .halfEven = if divK P s % 2 = 0 then divK P s else divK P s + 1 := by
  simp [roundDiv, h]

/-! ### Changing the sign of a dividend -/

/-- A floor quotient and its remainder are determined by the dividend (spec/00_scope.md R15). -/
theorem divK_modK_unique {P q r : Int} {s : Nat} (h : 2 ^ s * q + r = P) (hr : 0 ≤ r) (hrK : r < 2 ^ s) :
    divK P s = q ∧ modK P s = r :=
  (Int.ediv_emod_unique (by positivity)).mpr ⟨by linarith, hr, hrK⟩

/-- Without a remainder a change of sign only negates the quotient. -/
theorem divK_modK_neg_of_modK_eq_zero {P : Int} {s : Nat} (h : modK P s = 0) :
    divK (-P) s = -divK P s ∧ modK (-P) s = 0 := by
  have hqr := divK_modK P s
  exact divK_modK_unique (by linarith) le_rfl (by positivity)

/-- A remainder above zero is reflected by a change of sign, and the floor lies one further down. -/
theorem divK_modK_neg_of_modK_pos {P : Int} {s : Nat} (h : 0 < modK P s) :
    divK (-P) s = -divK P s - 1 ∧ modK (-P) s = 2 ^ s - modK P s := by
  have hqr := divK_modK P s
  have hrK := modK_lt P s
  exact divK_modK_unique (by linarith) (by omega) (by omega)

/-- An exact half stays one after a change of sign, and both tie rules then take the opposite neighbour: the one away from
zero, or the even one (spec/00_scope.md R16). -/
theorem roundDiv_neg_of_modK_eq_half {P : Int} {s : Nat} (hs : 1 ≤ s) (h : modK P s = 2 ^ (s - 1)) (tie : Tie) :
    roundDiv (-P) s tie = -roundDiv P s tie := by
  have hK : (2 : Int) ^ s = 2 * 2 ^ (s - 1) := (mul_pow_sub_one (by omega) 2).symm
  have hH : (0 : Int) < 2 ^ (s - 1) := by positivity
  obtain ⟨hq, hr⟩ := divK_modK_neg_of_modK_pos (h ▸ hH)
  have hHalf : modK (-P) s = 2 ^ (s - 1) := by omega
  cases tie with
  | halfAway =>
    have hP : P ≠ 0 := by
      rintro rfl
      have hzero : modK 0 s = 0 := Int.zero_emod _
      omega
    rw [roundDiv_halfAway_of_modK_eq h, roundDiv_halfAway_of_modK_eq hHalf, hq]
    split <;> split <;> omega
  | halfEven =>
    rw [roundDiv_halfEven_of_modK_eq h, roundDiv_halfEven_of_modK_eq hHalf, hq]
    split <;> split <;> omega

/-- `RoundDiv` is odd in its dividend, whichever the tie rule (derived in spec/00_scope.md R16). -/
theorem roundDiv_neg (P : Int) {s : Nat} (hs : 1 ≤ s) (tie : Tie) : roundDiv (-P) s tie = -roundDiv P s tie := by
  have hK : (2 : Int) ^ s = 2 * 2 ^ (s - 1) := (mul_pow_sub_one (by omega) 2).symm
  have hH : (0 : Int) < 2 ^ (s - 1) := by positivity
  rcases (modK_nonneg P s).eq_or_lt with hzero | hpos
  · obtain ⟨hq, hr⟩ := divK_modK_neg_of_modK_eq_zero hzero.symm
    rw [roundDiv_of_modK_lt (by omega), roundDiv_of_modK_lt (by omega), hq]
  · obtain ⟨hq, hr⟩ := divK_modK_neg_of_modK_pos hpos
    rcases lt_trichotomy (modK P s) (2 ^ (s - 1)) with hlt | heq | hgt
    · rw [roundDiv_of_modK_lt hlt, roundDiv_of_lt_modK (by omega), hq]
      omega
    · exact roundDiv_neg_of_modK_eq_half hs heq tie
    · rw [roundDiv_of_lt_modK hgt, roundDiv_of_modK_lt (by omega), hq]
      omega

/-! ### True results and signed readings -/

theorem wideTrue_comm (tie : Tie) (a b : Int) : wideTrue tie a b = wideTrue tie b a := by
  rw [wideTrue_eq_roundDiv, wideTrue_eq_roundDiv, mul_comm]

theorem wideTrue_neg_left (tie : Tie) (a b : Int) : wideTrue tie (-a) b = -wideTrue tie a b := by
  rw [wideTrue_eq_roundDiv, wideTrue_eq_roundDiv, neg_mul, roundDiv_neg _ (by norm_num)]

theorem pinnedPair_comm (a b : Int) : pinnedPair a b = pinnedPair b a := by
  rw [Bool.eq_iff_iff, pinnedPair_iff, pinnedPair_iff]
  omega

/-- Both pinned pairs have the true result `-32768` (spec/41_wide_path.md R74). -/
theorem wideTrue_of_pinnedPair {a b : Int} (h : pinnedPair a b = true) (tie : Tie) : wideTrue tie a b = -32768 := by
  obtain ⟨rfl, rfl⟩ | ⟨rfl, rfl⟩ := (pinnedPair_iff a b).mp h
  · exact wideTrue_of_mul_eq (by norm_num) tie
  · exact wideTrue_of_mul_eq (by norm_num) tie

/-- The signed reading loses nothing (spec/00_scope.md R14). -/
theorem eq_of_sint_eq {n : Nat} {v w : BitVec n} (h : sint v = sint w) : v = w := BitVec.eq_of_toInt_eq h

/-- Only the least operand is not negated by the change of sign of its word (spec/00_scope.md R14). -/
theorem sint_neg_narrow {a : Byte} (h : sint a ≠ -128) : sint (-a) = -sint a :=
  BitVec.toInt_neg_of_ne_intMin (by rintro rfl; exact h (by decide))

theorem sint_neg_wide {a : Half} (h : sint a ≠ -32768) : sint (-a) = -sint a :=
  BitVec.toInt_neg_of_ne_intMin (by rintro rfl; exact h (by decide))

/-! ### Clamping -/

theorem clamp_of_le_lo {t lo hi : Int} (h : t ≤ lo) (hle : lo ≤ hi) : clamp t lo hi = lo := by
  rcases clamp_cases t lo hi with ⟨-, hc⟩ | ⟨_, _, hc⟩ | ⟨_, _, hc⟩ <;> omega

theorem clamp_of_hi_le {t lo hi : Int} (h : hi ≤ t) (hle : lo ≤ hi) : clamp t lo hi = hi := by
  rcases clamp_cases t lo hi with ⟨_, hc⟩ | ⟨-, -, hc⟩ | ⟨_, _, hc⟩ <;> omega

theorem clamp_of_mem {t lo hi : Int} (hlo : lo ≤ t) (hhi : t ≤ hi) : clamp t lo hi = t := by
  rcases clamp_cases t lo hi with ⟨_, hc⟩ | ⟨_, _, hc⟩ | ⟨-, -, hc⟩ <;> omega

/-- A clamp to a range symmetric about zero is odd. -/
theorem clamp_neg (t : Int) {m : Int} (hm : 0 ≤ m) : clamp (-t) (-m) m = -clamp t (-m) m := by
  rcases clamp_cases t (-m) m with ⟨h, hc⟩ | ⟨-, h, hc⟩ | ⟨hlo, hhi, hc⟩
  · rw [hc, clamp_of_hi_le (by omega) (by omega), neg_neg]
  · rw [hc, clamp_of_le_lo (by omega) (by omega)]
  · rw [hc, clamp_of_mem (by omega) (by omega)]

/-! ### The oracle of the wide path -/

theorem wideReference_symmetric (tie : Tie) (a b : Int) :
    wideReference tie .symmetric a b = clamp (wideTrue tie a b) (-32767) 32767 := rfl

theorem wideReference_pointwise (tie : Tie) (a b : Int) :
    wideReference tie .pointwise a b =
      if pinnedPair a b then -32767 else clamp (wideTrue tie a b) (-32768) 32767 := rfl

/-- The pinned pairs matter only below the range: above `-32768` the oracle clamps whatever the floor. -/
theorem wideReference_pointwise_of_lt_wideTrue {tie : Tie} {a b : Int} (h : -32768 < wideTrue tie a b) :
    wideReference tie .pointwise a b = clamp (wideTrue tie a b) (-32768) 32767 := by
  refine if_neg fun hp => ?_
  have := wideTrue_of_pinnedPair hp tie
  omega

/-- Above the range the oracle saturates (spec/42_arithmetic_laws.md R84). -/
theorem wideReference_of_lt_wideTrue {tie : Tie} {a b : Int} (h : 32767 < wideTrue tie a b) (floor : NegFloor) :
    wideReference tie floor a b = 32767 := by
  cases floor with
  | symmetric => rw [wideReference_symmetric, clamp_of_hi_le h.le (by norm_num)]
  | pointwise =>
    rw [wideReference_pointwise_of_lt_wideTrue (by omega), clamp_of_hi_le h.le (by norm_num)]

/-- Within the range the oracle answers the true result (spec/42_arithmetic_laws.md R84). -/
theorem wideReference_of_wideTrue_mem {tie : Tie} {a b : Int} (hlo : -32767 ≤ wideTrue tie a b)
    (hhi : wideTrue tie a b ≤ 32767) (floor : NegFloor) : wideReference tie floor a b = wideTrue tie a b := by
  cases floor with
  | symmetric => rw [wideReference_symmetric, clamp_of_mem hlo hhi]
  | pointwise =>
    rw [wideReference_pointwise_of_lt_wideTrue (by omega), clamp_of_mem (by omega) hhi]

/-- Below the range the oracle answers `WideFloor` (spec/42_arithmetic_laws.md R84, spec/41_wide_path.md R69). -/
theorem wideReference_of_wideTrue_le {tie : Tie} {a b : Int} (h : wideTrue tie a b ≤ -32768) (floor : NegFloor) :
    wideReference tie floor a b = wideFloor floor a b := by
  cases floor with
  | symmetric => rw [wideReference_symmetric, clamp_of_le_lo (by omega) (by norm_num), wideFloor]
  | pointwise => rw [wideReference_pointwise, clamp_of_le_lo h (by norm_num), wideFloor]

/-- The true result and the pinned pairs, all the oracle looks at, do not depend on the order of the operands. -/
theorem wideReference_comm (tie : Tie) (floor : NegFloor) (a b : Int) :
    wideReference tie floor a b = wideReference tie floor b a := by
  simp only [wideReference, wideTrue_comm tie a b, pinnedPair_comm a b]

/-! ### The wide result is the oracle's -/

/-- Both floors fit the port, so no floor is lost in `bits_16`. -/
theorem sint_bits_wideFloor (floor : NegFloor) (a b : Int) :
    sint (bits 16 (wideFloor floor a b)) = wideFloor floor a b := by
  rcases wideFloor_cases floor a b with ⟨-, h⟩ | ⟨-, -, h⟩ | ⟨-, -, h⟩ <;>
    exact sint_bits_wide _ (by omega) (by omega)

/-- The wide function is its oracle on every pair, for every tie rule and floor (spec/42_arithmetic_laws.md R86). -/
theorem sint_wideResult (tie : Tie) (floor : NegFloor) (a b : Half) :
    sint (wideResult tie floor a b) = wideReference tie floor (sint a) (sint b) := by
  rcases lt_or_ge 32767 (wideTrue tie (sint a) (sint b)) with habove | hhi
  · rw [wideResult_of_lt_wideTrue habove, wideReference_of_lt_wideTrue habove,
      sint_bits_wide _ (by norm_num) (by norm_num)]
  · rcases le_or_gt (wideTrue tie (sint a) (sint b)) (-32768) with hbelow | hlo
    · rw [wideResult_of_wideTrue_le hbelow, wideReference_of_wideTrue_le hbelow, sint_bits_wideFloor]
    · rw [wideResult_of_wideTrue_mem hlo hhi, wideReference_of_wideTrue_mem hlo hhi, sint_bits_wide _ hlo.le hhi]

/-- Settles O29: `sint_wideResult` at the unit's parameters in the state `exec_wide` gives, and for all of them. -/
theorem wideMatchesItsOracle : Obligations.WideMatchesItsOracle :=
  ⟨fun a b s => ⟨_, exec_wide a b s, sint_wideResult Config.tie wideNegFloor a b⟩, sint_wideResult⟩

/-! ### Commutativity -/

theorem narrowResult_comm (tie : Tie) (ooc a b : Byte) : narrowResult tie ooc a b = narrowResult tie ooc b a := by
  by_cases h : sint a = -128 ∧ sint b = -128
  · obtain ⟨ha, hb⟩ := h
    rw [narrowResult_outOfContract tie ooc ha hb, narrowResult_outOfContract tie ooc hb ha]
  · have h' : ¬ (sint b = -128 ∧ sint a = -128) := fun ⟨hb, ha⟩ => h ⟨ha, hb⟩
    apply eq_of_sint_eq
    rw [sint_narrowResult tie ooc h, sint_narrowResult tie ooc h', mul_comm]

theorem wideResult_comm (tie : Tie) (floor : NegFloor) (a b : Half) :
    wideResult tie floor a b = wideResult tie floor b a := by
  apply eq_of_sint_eq
  rw [sint_wideResult, sint_wideResult, wideReference_comm]

/-- Settles O26: the two functions commute, and they are all a response of `exec` depends on. -/
theorem operandsCommute : Obligations.OperandsCommute := by
  refine ⟨narrowResult_comm, wideResult_comm, fun a b s => ⟨_, _, exec_narrow a b s, exec_narrow b a s, ?_⟩,
    fun a b s => ⟨_, _, exec_wide a b s, exec_wide b a s, ?_⟩⟩
  · simp [narrowResult_comm _ _ a b]
  · simp [wideResult_comm _ _ a b]

/-! ### Sign symmetry -/

/-- On the narrow path changing the sign of an operand that has an opposite leaves or enters no out-of-contract pair. -/
theorem sint_narrowResult_neg_left (tie : Tie) (ooc : Byte) {a : Byte} (b : Byte) (ha : sint a ≠ -128) :
    sint (narrowResult tie ooc (-a) b) = -sint (narrowResult tie ooc a b) := by
  have hneg := sint_neg_narrow ha
  have hrange := sint_narrow_range a
  rw [sint_narrowResult tie ooc (by omega), sint_narrowResult tie ooc (by omega), hneg, neg_mul,
    roundDiv_neg _ (by norm_num)]

/-- Under `SYMMETRIC` the oracle is odd in each operand (spec/42_arithmetic_laws.md R89 (b)). -/
theorem wideReference_symmetric_neg_left (tie : Tie) (a b : Int) :
    wideReference tie .symmetric (-a) b = -wideReference tie .symmetric a b := by
  rw [wideReference_symmetric, wideReference_symmetric, wideTrue_neg_left]
  exact clamp_neg _ (by norm_num)

/-- The pairs that reach the floor of `POINTWISE` (spec/42_arithmetic_laws.md R89 (c)). -/
abbrev ReachesPointwiseFloor (tie : Tie) (a b : Int) : Prop :=
  wideTrue tie a b ≤ -32768 ∧ ¬ pinnedPair a b = true

theorem reachesPointwiseFloor_comm (tie : Tie) (a b : Int) :
    ReachesPointwiseFloor tie a b ↔ ReachesPointwiseFloor tie b a := by
  rw [ReachesPointwiseFloor, wideTrue_comm, pinnedPair_comm]

theorem wideReference_of_reachesPointwiseFloor {tie : Tie} {a b : Int} (h : ReachesPointwiseFloor tie a b) :
    wideReference tie .pointwise a b = -32768 := by
  obtain ⟨hle, hp⟩ := h
  rw [wideReference_of_wideTrue_le hle, wideFloor, if_neg hp]

/-- The two floors differ only on the pairs that reach the one of `POINTWISE` (spec/41_wide_path.md R74). -/
theorem wideReference_pointwise_eq_symmetric {tie : Tie} {a b : Int} (h : ¬ ReachesPointwiseFloor tie a b) :
    wideReference tie .pointwise a b = wideReference tie .symmetric a b := by
  rcases le_or_gt (wideTrue tie a b) (-32768) with hle | hgt
  · have hp : pinnedPair a b = true := not_not.mp fun hp => h ⟨hle, hp⟩
    rw [wideReference_of_wideTrue_le hle, wideReference_of_wideTrue_le hle, wideFloor_of_pinnedPair hp,
      wideFloor_of_pinnedPair hp]
  · rcases lt_or_ge 32767 (wideTrue tie a b) with habove | hhi
    · rw [wideReference_of_lt_wideTrue habove, wideReference_of_lt_wideTrue habove]
    · rw [wideReference_of_wideTrue_mem hgt hhi, wideReference_of_wideTrue_mem hgt hhi]

/-- The opposite side of a pair that reaches the floor saturates. -/
theorem wideReference_neg_left_of_reachesPointwiseFloor {tie : Tie} {a b : Int} (h : ReachesPointwiseFloor tie a b) :
    wideReference tie .pointwise (-a) b = 32767 := by
  obtain ⟨hle, -⟩ := h
  have hneg := wideTrue_neg_left tie a b
  exact wideReference_of_lt_wideTrue (by omega) .pointwise

/-- Under `POINTWISE` the oracle is odd in its first operand but for the pairs that reach its floor, and those answer `-32768`
against `32767` (spec/42_arithmetic_laws.md R89 (c)). -/
theorem wideReference_pointwise_neg_left (tie : Tie) (a b : Int) :
    (¬ ReachesPointwiseFloor tie a b → ¬ ReachesPointwiseFloor tie (-a) b →
      wideReference tie .pointwise (-a) b = -wideReference tie .pointwise a b) ∧
    (ReachesPointwiseFloor tie a b →
      wideReference tie .pointwise a b = -32768 ∧ wideReference tie .pointwise (-a) b = 32767) ∧
    (ReachesPointwiseFloor tie (-a) b →
      wideReference tie .pointwise (-a) b = -32768 ∧ wideReference tie .pointwise a b = 32767) := by
  refine ⟨fun h h' => ?_, fun h => ?_, fun h => ?_⟩
  · rw [wideReference_pointwise_eq_symmetric h, wideReference_pointwise_eq_symmetric h',
      wideReference_symmetric_neg_left]
  · exact ⟨wideReference_of_reachesPointwiseFloor h, wideReference_neg_left_of_reachesPointwiseFloor h⟩
  · have hopp := wideReference_neg_left_of_reachesPointwiseFloor h
    rw [neg_neg] at hopp
    exact ⟨wideReference_of_reachesPointwiseFloor h, hopp⟩

/-- The same in the second operand, by commutativity. -/
theorem wideReference_pointwise_neg_right (tie : Tie) (a b : Int) :
    (¬ ReachesPointwiseFloor tie b a → ¬ ReachesPointwiseFloor tie b (-a) →
      wideReference tie .pointwise b (-a) = -wideReference tie .pointwise b a) ∧
    (ReachesPointwiseFloor tie b a →
      wideReference tie .pointwise b a = -32768 ∧ wideReference tie .pointwise b (-a) = 32767) ∧
    (ReachesPointwiseFloor tie b (-a) →
      wideReference tie .pointwise b (-a) = -32768 ∧ wideReference tie .pointwise b a = 32767) := by
  rw [wideReference_comm tie .pointwise b a, wideReference_comm tie .pointwise b (-a), reachesPointwiseFloor_comm tie b a,
    reachesPointwiseFloor_comm tie b (-a)]
  exact wideReference_pointwise_neg_left tie a b

/-- Settles O27: (a) by `roundDiv_neg` in contract, (b) and (c) as facts about the oracle, and in the second place by
commutativity. -/
theorem signSymmetry : Obligations.SignSymmetry := by
  refine ⟨fun tie ooc a b ha => ?_, fun tie a b ha => ?_, fun tie a b ha => ?_⟩
  · have hleft := sint_narrowResult_neg_left tie ooc b ha
    refine ⟨sint_neg_narrow ha, hleft, ?_⟩
    rwa [narrowResult_comm tie ooc b, narrowResult_comm tie ooc b]
  · have hleft : sint (wideResult tie .symmetric (-a) b) = -sint (wideResult tie .symmetric a b) := by
      rw [sint_wideResult, sint_wideResult, sint_neg_wide ha, wideReference_symmetric_neg_left]
    refine ⟨sint_neg_wide ha, hleft, ?_⟩
    rwa [wideResult_comm tie .symmetric b, wideResult_comm tie .symmetric b]
  · simp only [sint_wideResult, sint_neg_wide ha]
    obtain ⟨offFloor, atFloor, atOppositeFloor⟩ := wideReference_pointwise_neg_left tie (sint a) (sint b)
    exact ⟨offFloor, atFloor, atOppositeFloor, wideReference_pointwise_neg_right tie (sint a) (sint b)⟩

end Sys2Proof.Machine

/-!
## Proofs: encoding (spec/30_encoding.md R48 to R53, spec/00_scope.md R13, R14)

A request word is the concatenation of its two fields, so slicing undoes `concat` and `concat` undoes slicing. `decode` and
`encode` are these two on each path, once a word that decodes is known to fit its format.
-/

namespace Sys2Proof

/-! ### Decoder and encoder -/

/-- A word is the concatenation of its two parts (spec/00_scope.md R13). -/
theorem concat_slice {m n : Nat} (v : BitVec (m + n)) : concat (slice v n m) (slice v 0 n) = v := by
  rw [concat, slice, slice, BitVec.extractLsb'_append_extractLsb'_eq_extractLsb' (Nat.zero_add n).symm]
  exact BitVec.extractLsb'_eq_self

/-- Only words of a format's width decode (spec/30_encoding.md R50). -/
theorem lt_of_decode_eq_ok {p : Path} {word : Nat} {i : Instr} (h : decode p word = .ok i) : word < 2 ^ p.requestBits := by
  by_contra hge
  simp [decode, hge] at h

/-- A word beyond its format's width is refused with itself as the reason (spec/30_encoding.md R50). -/
theorem decode_of_le {p : Path} {word : Nat} (h : 2 ^ p.requestBits ≤ word) :
    decode p word = .error (.wordTooWide p word) := if_neg (Nat.not_lt.mpr h)

theorem decode_encode (i : Instr) : decode i.path (encode i) = .ok i := by
  cases i with
  | narrow a b =>
    rw [Instr.path_narrow, decode_narrow_of_lt (Laws.EncodeFits.narrow a b), encode, BitVec.ofNat_toNat, BitVec.setWidth_eq,
      decodeNarrow, slice_concat_high, slice_concat_low]
  | wide a b =>
    rw [Instr.path_wide, decode_wide_of_lt (Laws.EncodeFits.wide a b), encode, BitVec.ofNat_toNat, BitVec.setWidth_eq,
      decodeWide, slice_concat_high, slice_concat_low]

theorem encode_of_decode_eq_ok {p : Path} {word : Nat} {i : Instr} (h : decode p word = .ok i) :
    i.path = p ∧ encode i = word := by
  have hfits := lt_of_decode_eq_ok h
  cases p with
  | narrow =>
    obtain rfl := Except.ok.inj ((decode_narrow_of_lt hfits).symm.trans h)
    refine ⟨rfl, ?_⟩
    rw [decodeNarrow, encode, concat_slice (m := 8) (n := 8), BitVec.toNat_ofNat]
    exact Nat.mod_eq_of_lt hfits
  | wide =>
    obtain rfl := Except.ok.inj ((decode_wide_of_lt hfits).symm.trans h)
    refine ⟨rfl, ?_⟩
    rw [decodeWide, encode, concat_slice (m := 16) (n := 16), BitVec.toNat_ofNat]
    exact Nat.mod_eq_of_lt hfits

/-- The length of a path's format selects the path (spec/30_encoding.md R50). -/
@[simp] theorem pathOfLength_requestBits (p : Path) : pathOfLength p.requestBits = some p := by
  cases p <;> rfl

/-- Everything `decodeTableWord` can answer an instruction for: a word of the path its length selects. -/
theorem decodeTableWord_eq_some {nbits word : Nat} {i : Instr} :
    decodeTableWord nbits word = some i ↔ ∃ p, pathOfLength nbits = some p ∧ decode p word = .ok i := by
  rw [decodeTableWord]
  cases pathOfLength nbits with
  | none => simp
  | some p => cases h : decode p word <;> simp [h]

/-- Settles O1: `decode_encode`, on the table's words by the length of the path's format, and `encode_of_decode_eq_ok`. -/
theorem decodeAndEncodeAreInverse : Obligations.DecodeAndEncodeAreInverse :=
  ⟨fun i _ => ⟨decode_encode i,
    decodeTableWord_eq_some.mpr ⟨i.path, pathOfLength_requestBits i.path, decode_encode i⟩⟩,
    fun _ _ _ => encode_of_decode_eq_ok⟩

end Sys2Proof

namespace Sys2Proof.Machine

/-! ### Fields and their signed reading -/

/-- The upper field of a request word (spec/30_encoding.md R48, R49). -/
theorem toNat_slice_high {m n word : Nat} (h : word < 2 ^ (m + n)) :
    (slice (BitVec.ofNat (m + n) word) n m).toNat = word / 2 ^ n := by
  have hq : word / 2 ^ n < 2 ^ m := Nat.div_lt_of_lt_mul (by rwa [← pow_add, Nat.add_comm])
  rw [slice, BitVec.extractLsb'_toNat, BitVec.toNat_ofNat, Nat.mod_eq_of_lt h, Nat.shiftRight_eq_div_pow,
    Nat.mod_eq_of_lt hq]

/-- The lower field of a request word (spec/30_encoding.md R48, R49). -/
theorem toNat_slice_low {m n word : Nat} (h : word < 2 ^ (m + n)) :
    (slice (BitVec.ofNat (m + n) word) 0 n).toNat = word % 2 ^ n := by
  rw [slice, BitVec.extractLsb'_toNat, BitVec.toNat_ofNat, Nat.mod_eq_of_lt h, Nat.shiftRight_zero]

/-- The signed reading of a narrow port from its unsigned one (spec/00_scope.md R14). -/
theorem sint_narrow_of_toNat {v : Byte} {k : Nat} (h : v.toNat = k) :
    sint v = if k < 128 then (k : Int) else (k : Int) - 256 := by
  rw [sint, BitVec.toInt_eq_toNat_cond, h]
  split <;> split <;> omega

/-- The signed reading of a wide port from its unsigned one (spec/00_scope.md R14). -/
theorem sint_wide_of_toNat {v : Half} {k : Nat} (h : v.toNat = k) :
    sint v = if k < 32768 then (k : Int) else (k : Int) - 65536 := by
  rw [sint, BitVec.toInt_eq_toNat_cond, h]
  split <;> split <;> omega

/-- Settles O3: the fields by `toNat_slice_high` and `toNat_slice_low`, each read by its path's width. -/
theorem requestFieldsAreTheOperands : Obligations.RequestFieldsAreTheOperands := by
  refine ⟨fun word h => ⟨_, _, decode_narrow_of_lt h, ?_⟩, fun word h => ⟨_, _, decode_wide_of_lt h, ?_⟩⟩
  · have hhigh := toNat_slice_high (m := 8) (n := 8) h
    have hlow := toNat_slice_low (m := 8) (n := 8) h
    exact ⟨hhigh, hlow, by exact_mod_cast sint_narrow_of_toNat hhigh, by exact_mod_cast sint_narrow_of_toNat hlow⟩
  · have hhigh := toNat_slice_high (m := 16) (n := 16) h
    have hlow := toNat_slice_low (m := 16) (n := 16) h
    exact ⟨hhigh, hlow, by exact_mod_cast sint_wide_of_toNat hhigh, by exact_mod_cast sint_wide_of_toNat hlow⟩

/-- Settles O4: four closed words, which the decoder evaluates to their pairs. -/
theorem listedWordsDecode : Obligations.ListedWordsDecode := ⟨rfl, rfl, rfl, rfl⟩

/-- `bits_N` loses nothing on the range of an `N`-bit vector (spec/00_scope.md R14). -/
theorem sint_bits {n : Nat} (hn : 0 < n) {i : Int} (hlo : -(2 : Int) ^ (n - 1) ≤ i) (hhi : i ≤ (2 : Int) ^ (n - 1) - 1) :
    sint (bits n i) = i := by
  have hpow : (2 : Int) ^ n = 2 * 2 ^ (n - 1) := (mul_pow_sub_one (by omega) 2).symm
  rw [sint, bits, BitVec.toInt_ofInt]
  apply Int.bmod_eq_of_le_mul_two <;> push_cast <;> omega

/-- `bits_N` wraps modulo `2^N` (spec/00_scope.md R14). -/
theorem toNat_bits (n : Nat) (i : Int) : ((bits n i).toNat : Int) = i % 2 ^ n := by
  rw [bits, BitVec.toNat_ofInt, Int.toNat_of_nonneg (Int.emod_nonneg i (by positivity))]
  push_cast
  rfl

/-- `sint_N` by the top bit (spec/00_scope.md R14). -/
theorem sint_eq_sub_of_msb {n : Nat} (v : BitVec n) :
    sint v = (v.toNat : Int) - (if v.msb then (2 : Int) ^ n else 0) := by
  rw [sint, BitVec.toInt_eq_msb_cond]
  split <;> simp

/-- Settles O5: the value by the top bit, the two inverse laws, the wrap-around and the two extensions. -/
theorem signedReadingAndItsInverse : Obligations.SignedReadingAndItsInverse :=
  fun n hn =>
    ⟨fun v => ⟨sint_eq_sub_of_msb v, BitVec.le_toInt v, Int.le_sub_one_of_lt BitVec.toInt_lt, BitVec.ofInt_toInt⟩,
      fun _ => sint_bits hn, toNat_bits n,
      fun _ _ hmn => ⟨BitVec.toInt_signExtend_of_le hmn, BitVec.toNat_setWidth_of_le hmn⟩⟩

end Sys2Proof.Machine

/-!
## Proofs: each instruction's next state (spec/40_narrow_path.md R59, R62, spec/41_wide_path.md R69, spec/20_memory.md R36)

Short consequences of the equations of `exec`, and what an operation leaves of the host.
-/

namespace Sys2Proof.Machine

/-- An operation is not the host's: it neither takes a command nor writes a variable (spec/10_state.md R23). -/
theorem exec_keeps_host {i : Instr} {s t : State} (h : exec i s = .next t) :
    t.pending = s.pending ∧ t.vars = s.vars := by
  cases i with
  | narrow a b => simp [eq_of_exec_narrow h]
  | wide a b => simp [eq_of_exec_wide h]

/-- Presenting a pair that already stands on the ports writes what stands there. -/
theorem exec_again {i : Instr} {s t : State} (h : exec i s = .next t) : exec i t = .next t := by
  cases i with
  | narrow a b =>
    obtain rfl := eq_of_exec_narrow h
    exact exec_narrow a b _
  | wide a b =>
    obtain rfl := eq_of_exec_wide h
    exact exec_wide a b _

/-- Settles O32, which is `exec_narrow` and `exec_wide`. -/
theorem eachInstructionDrivesItsPathsFunction : Obligations.EachInstructionDrivesItsPathsFunction :=
  fun s => ⟨fun a b => exec_narrow a b s, fun a b => exec_wide a b s⟩

/-- Settles O12: the next state is `exec_narrow`'s at the out-of-contract byte, and a later response is `pairResponse` of its
own pair. -/
theorem narrowOutOfContractIsNoFault : Obligations.NarrowOutOfContractIsNoFault := by
  refine fun s => ⟨?_, fun i t _ => ?_⟩
  · rw [exec_narrow, narrowResult_outOfContract Config.tie Config.narrowOocResult (by decide) (by decide)]
    rfl
  · obtain ⟨u, hu⟩ := exec_completes i s
    obtain ⟨u', hu'⟩ := exec_completes i t
    exact ⟨u, u', hu, hu', (response_of_exec hu').trans (response_of_exec hu).symm⟩

/-- Settles O37, from `exec_again`. -/
theorem operationsAreIdempotent : Obligations.OperationsAreIdempotent := by
  intro i s
  obtain ⟨t, ht⟩ := exec_completes i s
  exact ⟨t, ht, exec_again ht, t.response_path i.path⟩

end Sys2Proof.Machine

/-!
## Proofs: operands and program errors (spec/30_encoding.md R55, R58)

`OperandError` says from the rules which operands are in error. A sound operand resolves on its path, so the request word of a
line is the encoding of an instruction of its path, or else the first operand in error gives the reason.
-/

namespace Sys2Proof.Machine

/-! ### Operands -/

theorem exists_narrowOperand_ok {vars : Vars} {o : Operand} (h : ∀ r, ¬ OperandError vars .narrow o r) :
    ∃ a, narrowOperand vars o = .ok a := by
  cases ho : narrowOperand vars o with
  | ok a => exact ⟨a, rfl⟩
  | error r => exact absurd (narrowOperand_error.mp ho) (h r)

theorem exists_wideOperand_ok {vars : Vars} {o : Operand} (h : ∀ r, ¬ OperandError vars .wide o r) :
    ∃ a, wideOperand vars o = .ok a := by
  cases ho : wideOperand vars o with
  | ok a => exact ⟨a, rfl⟩
  | error r => exact absurd (wideOperand_error.mp ho) (h r)

/-- A well-formed operand is no error, whatever the reason (spec/30_encoding.md R55, R58). -/
theorem not_operandError_of_wf {vars : Vars} {p : Path} {o : Operand} (h : o.wf (varTypes vars) p = true) (r : Refusal) :
    ¬ OperandError vars p o r := by
  cases o with
  | lit l =>
    rw [Operand.wf_lit] at h
    simp [operandError_lit, h]
  | var x =>
    rw [Operand.wf_var, lookup_varTypes] at h
    obtain ⟨v, hv, hpath⟩ := Option.map_eq_some_iff.mp h
    simp [operandError_var, hv, hpath]

theorem narrowOperand_lit {vars : Vars} {l : Literal} (h : l.wf .narrow = true) :
    narrowOperand vars (.lit l) = .ok (literalBits 8 l) := if_pos h

theorem wideOperand_lit {vars : Vars} {l : Literal} (h : l.wf .wide = true) :
    wideOperand vars (.lit l) = .ok (literalBits 16 l) := if_pos h

theorem narrowOperand_var {vars : Vars} {x : HostVar} {v : Byte} (h : vars.lookup x = some (.narrow v)) :
    narrowOperand vars (.var x) = .ok v := by
  simp [narrowOperand, h]

theorem wideOperand_var {vars : Vars} {x : HostVar} {v : Half} (h : vars.lookup x = some (.wide v)) :
    wideOperand vars (.var x) = .ok v := by
  simp [wideOperand, h]

/-- A variable of the other path is an error of the program (spec/30_encoding.md R55). -/
theorem operandError_var_of_path_ne {vars : Vars} {p : Path} {x : HostVar} {v : Response} (h : vars.lookup x = some v)
    (hne : v.path ≠ p) : OperandError vars p (.var x) (.hostVariableOfOtherPath x) :=
  operandError_var.mpr (.inr ⟨v, h, hne, rfl⟩)

/-- Settles O40: each form by its own equation, and the refused ones by their `OperandError`. -/
theorem operandsDenoteTheirValues : Obligations.OperandsDenoteTheirValues := by
  intro vars
  refine ⟨fun n hlo hhi => ⟨_, narrowOperand_lit ((Literal.wf_dec _ n).mpr ⟨hlo, hhi⟩), sint_bits_narrow n hlo hhi⟩,
    fun n hlo hhi => ⟨_, wideOperand_lit ((Literal.wf_dec _ n).mpr ⟨hlo, hhi⟩), sint_bits_wide n hlo hhi⟩,
    fun k hk => ⟨_, narrowOperand_lit ((Literal.wf_hex _ k).mpr hk), Nat.mod_eq_of_lt hk⟩,
    fun k hk => ⟨_, wideOperand_lit ((Literal.wf_hex _ k).mpr hk), Nat.mod_eq_of_lt hk⟩,
    ⟨_, wideOperand_lit rfl, sint_bits_wide _ (by norm_num) (by norm_num)⟩,
    ⟨_, wideOperand_lit rfl, sint_bits_wide _ (by norm_num) (by norm_num)⟩,
    narrowOperand_error.mpr (operandError_lit.mpr ⟨rfl, rfl⟩),
    narrowOperand_error.mpr (operandError_lit.mpr ⟨rfl, rfl⟩),
    fun x v h => ⟨narrowOperand_var h, wideOperand_error.mpr (operandError_var_of_path_ne h (by simp))⟩,
    fun x v h => ⟨wideOperand_var h, narrowOperand_error.mpr (operandError_var_of_path_ne h (by simp))⟩⟩

/-! ### The request word of a line -/

theorem lineRequest_narrow {vars : Vars} {l : Line} {a b : Byte} (hp : l.path = .narrow)
    (hx : narrowOperand vars l.x = .ok a) (hy : narrowOperand vars l.y = .ok b) :
    lineRequest vars l = .ok (encode (.narrow a b)) := by
  simp only [lineRequest, hp, hx, hy, encode]

theorem lineRequest_wide {vars : Vars} {l : Line} {a b : Half} (hp : l.path = .wide)
    (hx : wideOperand vars l.x = .ok a) (hy : wideOperand vars l.y = .ok b) :
    lineRequest vars l = .ok (encode (.wide a b)) := by
  simp only [lineRequest, hp, hx, hy, encode]

/-- Two sound operands make a request word of the line's path. -/
theorem exists_lineRequest_ok {vars : Vars} {l : Line} (hx : ∀ r, ¬ OperandError vars l.path l.x r)
    (hy : ∀ r, ¬ OperandError vars l.path l.y r) :
    ∃ i : Instr, lineRequest vars l = .ok (encode i) ∧ i.path = l.path := by
  cases hp : l.path with
  | narrow =>
    rw [hp] at hx hy
    obtain ⟨a, ha⟩ := exists_narrowOperand_ok hx
    obtain ⟨b, hb⟩ := exists_narrowOperand_ok hy
    exact ⟨.narrow a b, lineRequest_narrow hp ha hb, rfl⟩
  | wide =>
    rw [hp] at hx hy
    obtain ⟨a, ha⟩ := exists_wideOperand_ok hx
    obtain ⟨b, hb⟩ := exists_wideOperand_ok hy
    exact ⟨.wide a b, lineRequest_wide hp ha hb, rfl⟩

/-- A first operand in error is the one named. -/
theorem lineRequest_error_left {vars : Vars} {l : Line} {r : Refusal} (h : OperandError vars l.path l.x r) :
    lineRequest vars l = .error r := by
  cases hp : l.path with
  | narrow =>
    rw [hp] at h
    simp only [lineRequest, hp, narrowOperand_error.mpr h]
  | wide =>
    rw [hp] at h
    simp only [lineRequest, hp, wideOperand_error.mpr h]

/-- A second operand in error is named after a sound first one. -/
theorem lineRequest_error_right {vars : Vars} {l : Line} {r : Refusal} (hx : ∀ r', ¬ OperandError vars l.path l.x r')
    (hy : OperandError vars l.path l.y r) : lineRequest vars l = .error r := by
  cases hp : l.path with
  | narrow =>
    rw [hp] at hx hy
    obtain ⟨a, ha⟩ := exists_narrowOperand_ok hx
    simp only [lineRequest, hp, ha, narrowOperand_error.mpr hy]
  | wide =>
    rw [hp] at hx hy
    obtain ⟨a, ha⟩ := exists_wideOperand_ok hx
    simp only [lineRequest, hp, ha, wideOperand_error.mpr hy]

/-- Everything `lineRequest` can answer: the word of an instruction of the line's path, or an operand's error. -/
theorem lineRequest_cases (vars : Vars) (l : Line) :
    (∃ i : Instr, lineRequest vars l = .ok (encode i) ∧ i.path = l.path) ∨
    (∃ r, lineRequest vars l = .error r ∧ (OperandError vars l.path l.x r ∨ OperandError vars l.path l.y r)) := by
  by_cases hx : ∃ r, OperandError vars l.path l.x r
  · obtain ⟨r, hr⟩ := hx
    exact .inr ⟨r, lineRequest_error_left hr, .inl hr⟩
  · by_cases hy : ∃ r, OperandError vars l.path l.y r
    · obtain ⟨r, hr⟩ := hy
      exact .inr ⟨r, lineRequest_error_right (not_exists.mp hx) hr, .inr hr⟩
    · exact .inl (exists_lineRequest_ok (not_exists.mp hx) (not_exists.mp hy))

end Sys2Proof.Machine

/-!
## Proofs: the step and the host's program (spec/30_encoding.md R55, spec/70_reset_and_hazards.md R126)

`fetch` has one equation per kind of next command, and `step` one per kind of fetch. A sound command is an operation, which
completes; the variables it leaves are those `programWf` had foreseen, so what remains of the program is well formed again.
-/

namespace Sys2Proof.Machine

/-! ### Fetch and step, one equation per case -/

theorem fetch_request {s : State} {p : Path} {word : Nat} {rest : List Command} {i : Instr}
    (hs : s.pending = .request p word :: rest) (hd : decode p word = .ok i) : fetch s = .op i none := by
  simp only [fetch, hs, fetchCommand, fetchRequest, hd]

theorem fetch_request_too_wide {s : State} {p : Path} {word : Nat} {rest : List Command}
    (hs : s.pending = .request p word :: rest) (hw : 2 ^ p.requestBits ≤ word) :
    fetch s = .refused (.undecodable (.wordTooWide p word)) := by
  simp only [fetch, hs, fetchCommand, fetchRequest, decode_of_le hw]

theorem fetch_line {s : State} {l : Line} {rest : List Command} {i : Instr} (hs : s.pending = .line l :: rest)
    (hl : lineRequest s.vars l = .ok (encode i)) (hp : i.path = l.path) : fetch s = .op i (some l.d) := by
  simp only [fetch, hs, fetchCommand, hl, fetchRequest, ← hp, decode_encode]

theorem fetch_line_error {s : State} {l : Line} {rest : List Command} {r : Refusal} (hs : s.pending = .line l :: rest)
    (hl : lineRequest s.vars l = .error r) : fetch s = .refused r := by
  simp only [fetch, hs, fetchCommand, hl]

theorem step_of_pending_nil {s : State} (h : s.pending = []) : step s = .next s := by
  simp only [step, fetch, h]

theorem step_of_fetch_op {s u : State} {i : Instr} {dest : Option HostVar} (hf : fetch s = .op i dest)
    (he : exec i s.advance = .next u) : step s = .next (u.takeResult i.path dest) := by
  simp only [step, hf, he]

theorem step_of_fetch_refused {s : State} {r : Refusal} (hf : fetch s = .refused r) : step s = .refused r := by
  simp only [step, hf]

/-- The state after taking the next command off, by what is left. -/
theorem advance_of_pending_cons {s : State} {c : Command} {rest : List Command} (h : s.pending = c :: rest) :
    s.advance = { s with pending := rest } := by
  simp only [State.advance, h, List.tail_cons]

/-! ### What a step performs -/

/-- A step over a request word is `exec` of the instruction it decodes to (spec/30_encoding.md R57). -/
theorem step_request {s : State} {p : Path} {word : Nat} {rest : List Command} {i : Instr}
    (hs : s.pending = .request p word :: rest) (hd : decode p word = .ok i) :
    step s = exec i { s with pending := rest } := by
  obtain ⟨u, hu⟩ := exec_completes i s.advance
  rw [step_of_fetch_op (fetch_request hs hd) hu, State.takeResult_none, ← advance_of_pending_cons hs, hu]

/-- Settles O38: `step_request`, on the program that `withFetchWord` makes of a table word too. -/
theorem stepPerformsTheDecodedInstruction : Obligations.StepPerformsTheDecodedInstruction := by
  refine ⟨fun s p word rest i hs hd => step_request hs hd, fun s nbits word i h => ?_⟩
  obtain ⟨p, hp, hd⟩ := decodeTableWord_eq_some.mp h
  have hs : (s.withFetchWord nbits word).pending = .request p word :: s.pending := by
    simp only [State.withFetchWord_pending, placeTableWord, hp]
  exact step_request hs hd

/-- A step over a line that resolves to `i`: `exec` of `i`, and its result in the line's variable (spec/30_encoding.md R55). -/
theorem step_line {s : State} {l : Line} {rest : List Command} {i : Instr} (hs : s.pending = .line l :: rest)
    (hl : lineRequest s.vars l = .ok (encode i)) (hp : i.path = l.path) :
    ∃ t u : State, exec i { s with pending := rest } = .next u ∧ step s = .next t ∧ t = { u with vars := t.vars } ∧
      t.vars.lookup l.d = some (u.response i.path) ∧ ∀ e : HostVar, e ≠ l.d → t.vars.lookup e = s.vars.lookup e := by
  obtain ⟨u, hu⟩ := exec_completes i s.advance
  obtain ⟨-, hvars⟩ := exec_keeps_host hu
  refine ⟨_, u, advance_of_pending_cons hs ▸ hu, step_of_fetch_op (fetch_line hs hl hp) hu, rfl, ?_, fun e he => ?_⟩
  · rw [State.takeResult_some_vars, lookup_setVar_self]
  · rw [State.takeResult_some_vars, lookup_setVar_of_ne he, hvars, State.advance_vars]

/-- Settles O39: `step_line` with the word of a narrow or a wide line. -/
theorem stepPerformsALine : Obligations.StepPerformsALine :=
  ⟨fun _ _ _ _ _ hs hp hx hy => step_line hs (lineRequest_narrow hp hx hy) hp.symm,
    fun _ _ _ _ _ hs hp hx hy => step_line hs (lineRequest_wide hp hx hy) hp.symm⟩

/-! ### What a step refuses -/

/-- Everything the fetch can refuse: an operand in error, or a listed word too wide. -/
theorem fetch_refused {s : State} {r : Refusal} (h : fetch s = .refused r) :
    (∃ l rest, s.pending = .line l :: rest ∧ (OperandError s.vars l.path l.x r ∨ OperandError s.vars l.path l.y r)) ∨
    ∃ p word rest, s.pending = .request p word :: rest ∧ 2 ^ p.requestBits ≤ word ∧
      r = .undecodable (.wordTooWide p word) := by
  cases hs : s.pending with
  | nil => simp [fetch, hs] at h
  | cons c rest =>
    cases c with
    | request p word =>
      rcases Nat.lt_or_ge word (2 ^ p.requestBits) with hlt | hge
      · obtain ⟨i, hd, -⟩ := decode_total hlt
        exact absurd ((fetch_request hs hd).symm.trans h) (by simp)
      · obtain rfl := Fetched.refused.inj ((fetch_request_too_wide hs hge).symm.trans h)
        exact .inr ⟨p, word, rest, rfl, hge, rfl⟩
    | line l =>
      refine .inl ⟨l, rest, rfl, ?_⟩
      obtain ⟨i, hl, hp⟩ | ⟨r', hl, herror⟩ := lineRequest_cases s.vars l
      · exact absurd ((fetch_line hs hl hp).symm.trans h) (by simp)
      · obtain rfl := Fetched.refused.inj ((fetch_line_error hs hl).symm.trans h)
        exact herror

/-- Settles O41: the errors of a line by `lineRequest_error_left` and `lineRequest_error_right`, and the converse by
`fetch_refused`, since no instruction refuses. -/
theorem programErrorsAreRefused : Obligations.ProgramErrorsAreRefused :=
  ⟨fun _ _ _ hs =>
      ⟨fun _ hx => step_of_fetch_refused (fetch_line_error hs (lineRequest_error_left hx)),
        fun _ hx hy => step_of_fetch_refused (fetch_line_error hs (lineRequest_error_right hx hy))⟩,
    fun _ _ _ _ hs hw => step_of_fetch_refused (fetch_request_too_wide hs hw),
    fun _ _ h => fetch_refused (step_refused h)⟩

/-! ### Well-formed programs -/

/-- After a write the variables tell of its path what `Command.written` foresaw. -/
theorem programWf_varTypes_setVar (d : HostVar) (v : Response) (vars : Vars) (l : List Command) :
    programWf (varTypes (setVar d v vars)) l = programWf ((d, v.path) :: varTypes vars) l := by
  refine programWf_congr (fun e => ?_) l
  by_cases he : e = d
  · subst he
    simp
  · rw [lookup_varTypes, lookup_setVar_of_ne he, List.lookup_cons, beq_false_of_ne he, lookup_varTypes]

/-- A well-formed program has a next operation, whose destination is the one `Command.written` records. -/
theorem fetch_of_programWf {s : State} {c : Command} {rest : List Command} (hs : s.pending = c :: rest)
    (hc : c.wf (varTypes s.vars) = true) :
    ∃ i dest, fetch s = .op i dest ∧
      c.written (varTypes s.vars) = (dest.map fun d => (d, i.path)).toList ++ varTypes s.vars := by
  cases c with
  | request p word =>
    obtain ⟨i, hd, -⟩ := decode_total (of_decide_eq_true hc)
    exact ⟨i, none, fetch_request hs hd, rfl⟩
  | line l =>
    obtain ⟨hx, hy⟩ := Bool.and_eq_true_iff.mp hc
    obtain ⟨i, hl, hp⟩ := exists_lineRequest_ok (not_operandError_of_wf hx) (not_operandError_of_wf hy)
    exact ⟨i, some l.d, fetch_line hs hl hp, by simp [Command.written, hp]⟩

/-- The variables after taking a result, as far as `programWf` looks at them. -/
theorem programWf_takeResult (u : State) (p : Path) (dest : Option HostVar) (l : List Command) :
    programWf (varTypes (u.takeResult p dest).vars) l =
      programWf ((dest.map fun d => (d, p)).toList ++ varTypes u.vars) l := by
  cases dest with
  | none => rfl
  | some d =>
    rw [State.takeResult_some_vars, programWf_varTypes_setVar, State.response_path]
    rfl

/-- Settles O42: with nothing pending the step changes nothing; else `fetch_of_programWf` gives the operation, which completes,
and `programWf_takeResult` the variables after it. -/
theorem wellFormedProgramIsNeverRefused : Obligations.WellFormedProgramIsNeverRefused := by
  intro s hok
  cases hs : s.pending with
  | nil => exact ⟨s, step_of_pending_nil hs, hok, hs⟩
  | cons c rest =>
    rw [State.ProgramOk, hs, programWf_cons] at hok
    obtain ⟨hc, hrest⟩ := hok
    obtain ⟨i, dest, hf, hwritten⟩ := fetch_of_programWf hs hc
    obtain ⟨u, hu⟩ := exec_completes i s.advance
    obtain ⟨hpending, hvars⟩ := exec_keeps_host hu
    have htail : (u.takeResult i.path dest).pending = rest := by
      rw [State.takeResult_pending, hpending, State.advance_pending, hs, List.tail_cons]
    refine ⟨_, step_of_fetch_op hf hu, ?_, htail⟩
    rw [State.ProgramOk, htail, programWf_takeResult, hvars, State.advance_vars, ← hwritten]
    exact hrest

/-- A run of one more step begins with that step. -/
theorem run_succ_of_step {s t : State} (h : step s = .next t) (k : Nat) : core.run (k + 1) s = core.run k t := by
  have hcore : core.step s = .next t := h
  simp only [Host.Core.run, hcore]

/-- As many steps as a well-formed program has commands take it to its end. -/
theorem run_of_programOk (k : Nat) (s : State) (hok : s.ProgramOk) (hk : s.pending.length = k) :
    ∃ t : State, core.run k s = .next t ∧ t.pending = [] := by
  induction k generalizing s with
  | zero => exact ⟨s, rfl, List.eq_nil_of_length_eq_zero hk⟩
  | succ k ih =>
    obtain ⟨t, hstep, htok, htail⟩ := wellFormedProgramIsNeverRefused s hok
    obtain ⟨t', hrun, hend⟩ := ih t htok (by rw [htail, List.length_tail, hk, Nat.add_sub_cancel])
    exact ⟨t', (run_succ_of_step hstep k).trans hrun, hend⟩

/-- Settles O43, by induction on the number of commands with O42 as its step. -/
theorem wellFormedProgramRunsToItsEnd : Obligations.WellFormedProgramRunsToItsEnd :=
  fun s hok => run_of_programOk s.pending.length s hok rfl

end Sys2Proof.Machine

/-!
## Proofs: the invariants (spec/10_state.md R31, spec/41_wide_path.md R73)

A step does nothing or performs one operation and takes its result (`step_next`), so an invariant is kept by a step when
`exec`, on the state the host moved on to, and the writing of a variable keep it.
-/

namespace Sys2Proof.Machine

/-! ### Ports in agreement, canonical variables -/

theorem exec_keeps_portsAgree {i : Instr} {s t : State} (hs : s.PortsAgree) (h : exec i s = .next t) : t.PortsAgree := by
  obtain ⟨hn, hw⟩ := hs
  cases i with
  | narrow a b =>
    obtain rfl := eq_of_exec_narrow h
    exact ⟨rfl, hw⟩
  | wide a b =>
    obtain rfl := eq_of_exec_wide h
    exact ⟨hn, rfl⟩

theorem takeResult_keeps_varsCanonical {s : State} (h : s.VarsCanonical) (p : Path) (dest : Option HostVar) :
    (s.takeResult p dest).VarsCanonical := by
  cases dest with
  | none => exact h
  | some d => exact varsCanonical_setVar d (s.response p) s.vars h

/-- Settles O44: the ports by `exec_keeps_portsAgree`, the variables by `takeResult_keeps_varsCanonical`. -/
theorem stepKeepsThePortsInAgreement : Obligations.StepKeepsThePortsInAgreement := by
  intro s t hports hvars hstep
  obtain ⟨-, rfl⟩ | ⟨i, dest, u, -, hu, rfl⟩ := step_next hstep
  · exact ⟨hports, hvars⟩
  · obtain ⟨-, huvars⟩ := exec_keeps_host hu
    have huports : u.PortsAgree := exec_keeps_portsAgree (s := s.advance) hports hu
    have hucanonical : u.VarsCanonical := by rwa [State.VarsCanonical, huvars, State.advance_vars]
    refine ⟨?_, takeResult_keeps_varsCanonical hucanonical i.path dest⟩
    simpa only [State.PortsAgree, State.takeResult_na, State.takeResult_nb, State.takeResult_nr, State.takeResult_wa,
      State.takeResult_wb, State.takeResult_wr] using huports

/-! ### The wide minimum -/

/-- Under `SYMMETRIC` every wide result lies in `[-32767, 32767]` (spec/41_wide_path.md R73). -/
theorem sint_wideResult_symmetric_range (tie : Tie) (a b : Half) :
    -32767 ≤ sint (wideResult tie .symmetric a b) ∧ sint (wideResult tie .symmetric a b) ≤ 32767 := by
  rw [sint_wideResult, wideReference_symmetric]
  rcases clamp_cases (wideTrue tie (sint a) (sint b)) (-32767) 32767 with ⟨-, hc⟩ | ⟨-, -, hc⟩ | ⟨hlo, hhi, hc⟩ <;> omega

theorem wideResult_symmetric_ne_wideMIN (tie : Tie) (a b : Half) : wideResult tie .symmetric a b ≠ 0x8000#16 := by
  intro h
  have hsint : sint (wideResult tie .symmetric a b) = -32768 := by
    rw [h]
    decide
  have hrange := sint_wideResult_symmetric_range tie a b
  omega

theorem exec_keeps_wr_ne_wideMIN {i : Instr} {s t : State} (hs : s.wr ≠ 0x8000#16) (h : exec i s = .next t) :
    t.wr ≠ 0x8000#16 := by
  cases i with
  | narrow a b =>
    obtain ⟨-, -, hwr⟩ := exec_narrow_keeps_wide_ports h
    rwa [hwr]
  | wide a b =>
    rw [wr_of_exec_wide h]
    exact wideResult_symmetric_ne_wideMIN Config.tie a b

theorem notWideMIN_response {s : State} (h : s.wr ≠ 0x8000#16) (p : Path) : NotWideMIN (s.response p) := by
  cases p with
  | narrow => simp [NotWideMIN]
  | wide => simpa [NotWideMIN] using h

theorem takeResult_keeps_notWideMIN {s : State} (hwr : s.wr ≠ 0x8000#16) (hvars : ∀ e ∈ s.vars, NotWideMIN e.2) (p : Path)
    (dest : Option HostVar) : ∀ e ∈ (s.takeResult p dest).vars, NotWideMIN e.2 := by
  cases dest with
  | none => exact hvars
  | some d =>
    intro e he
    obtain rfl | he := mem_setVar he
    · exact notWideMIN_response hwr p
    · exact hvars e he

/-- Settles O45: the port by `exec_keeps_wr_ne_wideMIN`, the variables by `takeResult_keeps_notWideMIN`. -/
theorem stepNeverYieldsTheWideMinimum : Obligations.StepNeverYieldsTheWideMinimum := by
  intro s t hwr hvars hstep
  obtain ⟨-, rfl⟩ | ⟨i, dest, u, -, hu, rfl⟩ := step_next hstep
  · exact ⟨hwr, hvars⟩
  · obtain ⟨-, huvars⟩ := exec_keeps_host hu
    have huwr : u.wr ≠ 0x8000#16 := exec_keeps_wr_ne_wideMIN (s := s.advance) hwr hu
    refine ⟨by rwa [State.takeResult_wr], takeResult_keeps_notWideMIN huwr ?_ i.path dest⟩
    rwa [huvars, State.advance_vars]

/-! ### The state before the first operation -/

/-- Settles O46: the output ports carry the functions of two zeros, and there is no program and no variable. -/
theorem resetMeetsTheInvariants : Obligations.ResetMeetsTheInvariants :=
  ⟨⟨by decide, by decide⟩, rfl, rfl, by decide, by simp⟩

end Sys2Proof.Machine

/-!
## Proofs: rounding division (spec/00_scope.md R16, spec/42_arithmetic_laws.md R95)

`RoundDiv` is the floor quotient with a remainder up to the half, or the next integer with one from the half on. Hence it lies
within half a step of the exact quotient, which determines it off the halves and decides when it is zero.
-/

namespace Sys2Proof.Machine

theorem two_pow_eq_two_mul_half {s : Nat} (hs : 1 ≤ s) : (2 : Int) ^ s = 2 * 2 ^ (s - 1) :=
  (mul_pow_sub_one (by omega) 2).symm

/-! ### Distance from the exact quotient -/

/-- The two neighbours `RoundDiv` chooses between, and on which side of the half each is taken (spec/00_scope.md R16). -/
theorem roundDiv_eq_floor_or_next (P : Int) (s : Nat) (tie : Tie) :
    (modK P s ≤ 2 ^ (s - 1) ∧ roundDiv P s tie = divK P s) ∨
    (2 ^ (s - 1) ≤ modK P s ∧ roundDiv P s tie = divK P s + 1) := by
  rcases roundDiv_cases P s tie with ⟨hr, h⟩ | ⟨hr, h⟩ | ⟨hr, ⟨-, -, h⟩ | ⟨-, -, h⟩ | ⟨-, -, h⟩ | ⟨-, -, h⟩⟩
  · exact .inl ⟨hr.le, h⟩
  · exact .inr ⟨hr.le, h⟩
  · exact .inr ⟨hr.ge, h⟩
  · exact .inl ⟨hr.le, h⟩
  · exact .inl ⟨hr.le, h⟩
  · exact .inr ⟨hr.ge, h⟩

/-- How far the rounded quotient lies from the exact one, by the side of the half. -/
theorem mul_roundDiv_sub (P : Int) (s : Nat) (tie : Tie) :
    (modK P s ≤ 2 ^ (s - 1) ∧ 2 ^ s * roundDiv P s tie - P = -modK P s) ∨
    (2 ^ (s - 1) ≤ modK P s ∧ 2 ^ s * roundDiv P s tie - P = 2 ^ s - modK P s) := by
  have hqr := divK_modK P s
  rcases roundDiv_eq_floor_or_next P s tie with ⟨hr, h⟩ | ⟨hr, h⟩
  · exact .inl ⟨hr, by rw [h]; linarith⟩
  · exact .inr ⟨hr, by rw [h]; linarith⟩

/-- `RoundDiv` lies within half a step of the exact quotient (spec/00_scope.md R16). -/
theorem roundDiv_nearest (P : Int) {s : Nat} (hs : 1 ≤ s) (tie : Tie) : 2 * |2 ^ s * roundDiv P s tie - P| ≤ 2 ^ s := by
  have hK := two_pow_eq_two_mul_half hs
  have hr0 := modK_nonneg P s
  have hrK := modK_lt P s
  have hle : |2 ^ s * roundDiv P s tie - P| ≤ 2 ^ (s - 1) := by
    rcases mul_roundDiv_sub P s tie with ⟨hr, h⟩ | ⟨hr, h⟩
    · exact abs_le.mpr (by omega)
    · exact abs_le.mpr (by omega)
  omega

/-- An integer less than half a step away is the nearest one, whatever the tie rule. -/
theorem roundDiv_eq_of_near {P t : Int} {s : Nat} (h : 2 * |2 ^ s * t - P| < 2 ^ s) (hs : 1 ≤ s) (tie : Tie) :
    roundDiv P s tie = t := by
  have hnear := roundDiv_nearest P hs tie
  have hK : (0 : Int) < 2 ^ s := by positivity
  have hdist : |2 ^ s * (roundDiv P s tie - t)| < 2 ^ s * 1 := by
    have htri := abs_sub (2 ^ s * roundDiv P s tie - P) (2 ^ s * t - P)
    rw [show 2 ^ s * (roundDiv P s tie - t) = (2 ^ s * roundDiv P s tie - P) - (2 ^ s * t - P) by ring]
    omega
  rw [abs_mul, abs_of_pos hK] at hdist
  have hlt : |roundDiv P s tie - t| < 1 := lt_of_mul_lt_mul_left hdist hK.le
  obtain ⟨hlo, hhi⟩ := abs_lt.mp hlt
  omega

/-- A multiple of the divisor needs no rounding. -/
theorem roundDiv_of_eq_mul {P t : Int} {s : Nat} (h : P = 2 ^ s * t) (tie : Tie) : roundDiv P s tie = t := by
  obtain ⟨hlo, hhi⟩ := roundDiv_bounds h.ge h.le tie
  exact le_antisymm hhi hlo

/-- On an exact half the result lies half a step away, whichever neighbour it is. -/
theorem two_mul_abs_of_modK_eq_half {P : Int} {s : Nat} (hs : 1 ≤ s) (h : modK P s = 2 ^ (s - 1)) (tie : Tie) :
    2 * |2 ^ s * roundDiv P s tie - P| = 2 ^ s := by
  have hK := two_pow_eq_two_mul_half hs
  have hH : (0 : Int) < 2 ^ (s - 1) := by positivity
  rcases mul_roundDiv_sub P s tie with ⟨-, hd⟩ | ⟨-, hd⟩
  · rw [hd, abs_neg, abs_of_pos (h ▸ hH), h, hK]
  · rw [hd, abs_of_pos (by omega)]
    omega

/-- On an exact half `HALF_AWAY` moves away from zero (spec/00_scope.md R16). -/
theorem abs_lt_abs_mul_roundDiv_halfAway {P : Int} {s : Nat} (hs : 1 ≤ s) (h : modK P s = 2 ^ (s - 1)) :
    |P| < |2 ^ s * roundDiv P s .halfAway| := by
  have hK := two_pow_eq_two_mul_half hs
  have hH : (0 : Int) < 2 ^ (s - 1) := by positivity
  have hqr := divK_modK P s
  rw [roundDiv_halfAway_of_modK_eq h]
  split
  case isTrue hP =>
    rw [mul_add_one, abs_of_nonneg hP, abs_of_nonneg (by omega)]
    omega
  case isFalse hP =>
    rw [abs_of_neg (by omega), abs_of_neg (by omega)]
    omega

/-- On an exact half `HALF_EVEN` takes the even neighbour (spec/00_scope.md R16). -/
theorem roundDiv_halfEven_even {P : Int} {s : Nat} (h : modK P s = 2 ^ (s - 1)) : roundDiv P s .halfEven % 2 = 0 := by
  rw [roundDiv_halfEven_of_modK_eq h]
  split <;> omega

/-- Settles O6: nearness by `roundDiv_nearest`, the neighbour by the side of the half, and on the half by the tie rule. -/
theorem roundDivIsTheNearestInteger : Obligations.RoundDivIsTheNearestInteger := by
  intro P s tie hs
  simp only [← divK_eq_fdiv, ← modK_eq_fmod]
  refine ⟨roundDiv_nearest P hs tie, fun h => roundDiv_of_modK_lt h tie, fun h => roundDiv_of_lt_modK h tie,
    fun h => ⟨two_mul_abs_of_modK_eq_half hs h tie, ?_, ?_⟩⟩
  · rintro rfl
    exact ⟨roundDiv_halfAway_of_modK_eq h, abs_lt_abs_mul_roundDiv_halfAway hs h⟩
  · rintro rfl
    exact ⟨roundDiv_halfEven_of_modK_eq h, roundDiv_halfEven_even h⟩

/-- Settles O7, which is `roundDiv_neg`. -/
theorem roundDivIsOdd : Obligations.RoundDivIsOdd := fun P _ tie hs => roundDiv_neg P hs tie

/-! ### The tie rule -/

/-- Off the exact half no tie rule is consulted (spec/40_narrow_path.md R68). -/
theorem roundDiv_eq_of_modK_ne {P : Int} {s : Nat} (h : modK P s ≠ 2 ^ (s - 1)) (tie tie' : Tie) :
    roundDiv P s tie = roundDiv P s tie' := by
  rcases lt_or_gt_of_ne h with hlt | hgt
  · rw [roundDiv_of_modK_lt hlt, roundDiv_of_modK_lt hlt]
  · rw [roundDiv_of_lt_modK hgt, roundDiv_of_lt_modK hgt]

/-- Settles O8: off the half by `roundDiv_eq_of_modK_ne`; on it each rule has one equation, and of two neighbours one is
even. -/
theorem tieMattersOnlyOnExactHalves : Obligations.TieMattersOnlyOnExactHalves := by
  intro P s hs
  refine ⟨fun h => roundDiv_eq_of_modK_ne h _ _, fun h => ?_⟩
  have haway := roundDiv_halfAway_of_modK_eq h
  have heven := roundDiv_halfEven_of_modK_eq h
  have hnext : roundDiv P s .halfAway = divK P s ∨ roundDiv P s .halfAway = divK P s + 1 := by
    rw [haway]
    split <;> simp
  have hdist : |roundDiv P s .halfAway - roundDiv P s .halfEven| ≤ 1 := by
    rw [heven]
    exact abs_le.mpr (by split <;> omega)
  refine ⟨fun hP => ?_, fun hP => ?_, ?_, roundDiv_halfEven_even h, hdist, ?_⟩
  · rw [haway, if_pos hP.le]
  · rw [haway, if_neg hP.not_ge]
  · rw [heven]
    split <;> simp
  · rw [heven]
    split <;> omega

/-! ### Sign and zero -/

/-- A product of factors of one sign is the product of the magnitudes. -/
theorem mul_eq_abs_mul_abs {a b : Int} (h : a < 0 ↔ b < 0) : a * b = |a| * |b| := by
  rcases lt_or_ge a 0 with ha | ha
  · rw [abs_of_neg ha, abs_of_neg (h.mp ha), neg_mul_neg]
  · rw [abs_of_nonneg ha, abs_of_nonneg (not_lt.mp fun hb => ha.not_gt (h.mpr hb))]

/-- A product of factors of opposite signs is the product of the magnitudes, negated. -/
theorem mul_eq_neg_abs_mul_abs {a b : Int} (h : ¬ (a < 0 ↔ b < 0)) : a * b = -(|a| * |b|) := by
  rcases lt_or_ge a 0 with ha | ha
  · rw [abs_of_neg ha, abs_of_nonneg (not_lt.mp fun hb => h (iff_of_true ha hb)), neg_mul, neg_neg]
  · have hb : b < 0 := not_le.mp fun hb => h (iff_of_false ha.not_gt hb.not_gt)
    rw [abs_of_nonneg ha, abs_of_neg hb, mul_neg, neg_neg]

/-- The true result is the rounded product of the magnitudes with the sign of the product (spec/42_arithmetic_laws.md R95). -/
theorem roundDiv_mul_eq_sign (a b : Int) {s : Nat} (hs : 1 ≤ s) (tie : Tie) :
    roundDiv (a * b) s tie =
      if a < 0 ↔ b < 0 then roundDiv (|a| * |b|) s tie else -roundDiv (|a| * |b|) s tie := by
  split
  case isTrue h => rw [mul_eq_abs_mul_abs h]
  case isFalse h => rw [mul_eq_neg_abs_mul_abs h, roundDiv_neg _ hs]

theorem roundDiv_nonneg {P : Int} (hP : 0 ≤ P) (s : Nat) (tie : Tie) : 0 ≤ roundDiv P s tie := by
  have hK : (1 : Int) ≤ 2 ^ s := one_le_pow₀ (by norm_num)
  exact (roundDiv_bounds (hi := P) (by simpa using hP) (le_mul_of_one_le_left hP hK) tie).1

/-- A dividend below the divisor is its own remainder. -/
theorem divK_modK_of_lt {P : Int} {s : Nat} (hP : 0 ≤ P) (hlt : P < 2 ^ s) : divK P s = 0 ∧ modK P s = P :=
  divK_modK_unique (by ring) hP hlt

/-- When a rounded magnitude is zero (spec/42_arithmetic_laws.md R95). -/
theorem roundDiv_eq_zero_iff {P : Int} {s : Nat} (hP : 0 ≤ P) (hs : 1 ≤ s) (tie : Tie) :
    roundDiv P s tie = 0 ↔ P < 2 ^ (s - 1) ∨ (P = 2 ^ (s - 1) ∧ tie = .halfEven) := by
  have hK := two_pow_eq_two_mul_half hs
  have hH : (0 : Int) < 2 ^ (s - 1) := by positivity
  rcases lt_trichotomy P (2 ^ (s - 1)) with hlt | heq | hgt
  · obtain ⟨hq, hr⟩ := divK_modK_of_lt (s := s) hP (by omega)
    simp [roundDiv_of_modK_lt (hr ▸ hlt), hq, hlt]
  · obtain ⟨hq, hr⟩ := divK_modK_of_lt (s := s) hP (by omega)
    have hhalf : modK P s = 2 ^ (s - 1) := hr.trans heq
    cases tie with
    | halfAway =>
      have hup : roundDiv P s .halfAway = 1 := by rw [roundDiv_halfAway_of_modK_eq hhalf, if_pos hP, hq, zero_add]
      simp [hup, heq.not_lt]
    | halfEven =>
      have hdown : roundDiv P s .halfEven = 0 := by rw [roundDiv_halfEven_of_modK_eq hhalf, hq, if_pos (Int.zero_emod 2)]
      exact iff_of_true hdown (.inr ⟨heq, rfl⟩)
  · have hne : roundDiv P s tie ≠ 0 := fun h => by
      have hnear := roundDiv_nearest P hs tie
      rw [h, mul_zero, zero_sub, abs_neg, abs_of_nonneg hP] at hnear
      omega
    simp [hne, hgt.not_gt, hgt.ne']

/-- Settles O9: the sign by `roundDiv_mul_eq_sign`, the zero by `roundDiv_eq_zero_iff`. -/
theorem signOfTheTrueResult : Obligations.SignOfTheTrueResult := by
  intro a b s tie hs
  have hP : 0 ≤ |a| * |b| := by positivity
  have hsign := roundDiv_mul_eq_sign a b hs tie
  have hzero : roundDiv 0 s tie = 0 := roundDiv_of_eq_mul (by ring) tie
  refine ⟨roundDiv_nonneg hP s tie, fun ha hb => ?_, fun ha hb => ?_, fun ha hb => ?_, fun ha hb => ?_, fun ha => ?_,
    fun hb => ?_, roundDiv_eq_zero_iff hP hs tie⟩
  · rw [hsign, if_pos (by omega)]
  · rw [hsign, if_pos (by omega)]
  · rw [hsign, if_neg (by omega)]
  · rw [hsign, if_neg (by omega)]
  · rw [ha, zero_mul, hzero]
  · rw [hb, mul_zero, hzero]

end Sys2Proof.Machine

/-!
## Proofs: the narrow contract and its corner cases (spec/40_narrow_path.md R61 to R68, spec/42_arithmetic_laws.md)

Either an operand is `-128`, and the product is `-128` times the other, or the product has magnitude at most `127 * 127`. All
bounds follow, with `roundDiv_nearest` for the true result. The corner cases are products near a multiple of 128.
-/

namespace Sys2Proof.Machine

/-! ### The contract -/

/-- A product of two factors of magnitude at most 127. -/
theorem abs_mul_le_of_abs_le_127 {a b : Int} (ha : |a| ≤ 127) (hb : |b| ≤ 127) : |a * b| ≤ 16129 := by
  rw [abs_mul]
  exact mul_le_mul ha hb (abs_nonneg b) (by norm_num)

/-- The narrow products: `-128` times an operand, or at most `127 * 127` in magnitude (spec/40_narrow_path.md R61). -/
theorem narrow_product_cases (a b : Byte) :
    (sint a = -128 ∧ sint a * sint b = -128 * sint b) ∨
    (sint b = -128 ∧ sint a * sint b = -128 * sint a) ∨
    (sint a ≠ -128 ∧ sint b ≠ -128 ∧ -16129 ≤ sint a * sint b ∧ sint a * sint b ≤ 16129) := by
  obtain ⟨ha, ha'⟩ := sint_narrow_range a
  obtain ⟨hb, hb'⟩ := sint_narrow_range b
  by_cases haMin : sint a = -128
  · exact .inl ⟨haMin, by rw [haMin]⟩
  · by_cases hbMin : sint b = -128
    · exact .inr (.inl ⟨hbMin, by rw [hbMin, mul_comm]⟩)
    · have hP := abs_mul_le_of_abs_le_127 (a := sint a) (b := sint b) (abs_le.mpr (by omega)) (abs_le.mpr (by omega))
      exact .inr (.inr ⟨haMin, hbMin, abs_le.mp hP⟩)

/-- The narrow true result is the rounded quotient by `128 = 2^7` (spec/00_scope.md R20). -/
theorem narrowTrue_eq_roundDiv (tie : Tie) (a b : Int) : narrowTrue tie a b = roundDiv (a * b) 7 tie := rfl

theorem narrowTrue_min_min (tie : Tie) : narrowTrue tie (-128) (-128) = 128 := by
  rw [narrowTrue_eq_roundDiv]
  exact roundDiv_of_eq_mul (by norm_num) tie

/-- The true result fits the port but for one pair (spec/40_narrow_path.md R61). -/
theorem not_narrowTrue_mem_iff (tie : Tie) (a b : Byte) :
    ¬ (-128 ≤ narrowTrue tie (sint a) (sint b) ∧ narrowTrue tie (sint a) (sint b) ≤ 127) ↔
      sint a = -128 ∧ sint b = -128 := by
  by_cases h : sint a = -128 ∧ sint b = -128
  · obtain ⟨ha, hb⟩ := h
    simp [ha, hb, narrowTrue_min_min]
  · obtain ⟨hlo, hhi⟩ := narrow_roundDiv_range tie h
    rw [← narrowTrue_eq_roundDiv] at hlo hhi
    exact iff_of_false (not_not.mpr ⟨by omega, hhi⟩) h

/-- Settles O11: the bounds and named pairs by `narrow_product_cases`, the rounded wording by `not_narrowTrue_mem_iff`. -/
theorem outOfContractSetIsOnePair : Obligations.OutOfContractSetIsOnePair := by
  intro a b tie
  have ha := sint_narrow_range a
  have hb := sint_narrow_range b
  refine ⟨?_, ?_, ?_, ?_, ?_, not_narrowTrue_mem_iff tie a b⟩ <;>
    rcases narrow_product_cases a b with ⟨haMin, hP⟩ | ⟨hbMin, hP⟩ | ⟨haNe, hbNe, hlo, hhi⟩ <;> omega

/-! ### The range of the results -/

/-- A rounded quotient by 128 is off by at most 64. -/
theorem narrow_roundDiv_nearest (P : Int) (tie : Tie) :
    -64 ≤ 128 * roundDiv P 7 tie - P ∧ 128 * roundDiv P 7 tie - P ≤ 64 := by
  have h := roundDiv_nearest P (s := 7) (by norm_num) tie
  rw [show (2 : Int) ^ 7 = 128 by norm_num] at h
  exact abs_le.mp (by omega)

/-- A true result at an end needs a product that only an operand `-128` reaches, and these are multiples of 128
(spec/40_narrow_path.md R64). -/
theorem narrow_roundDiv_eq_end_iff (tie : Tie) (a b : Byte) :
    (roundDiv (sint a * sint b) 7 tie = 127 ↔ sint a * sint b = 16256) ∧
    (roundDiv (sint a * sint b) 7 tie = -127 ↔ sint a * sint b = -16256) := by
  have ha := sint_narrow_range a
  have hb := sint_narrow_range b
  obtain ⟨hlo, hhi⟩ := narrow_roundDiv_nearest (sint a * sint b) tie
  have hcases := narrow_product_cases a b
  exact ⟨by omega, by omega⟩

/-- Where it has a value the narrow oracle answers the true result (spec/42_arithmetic_laws.md R83). -/
theorem narrowReference_eq_some {tie : Tie} {a b v : Int} (h : narrowReference tie a b = some v) :
    v = narrowTrue tie a b := by
  simp only [narrowReference] at h
  split at h
  · exact (Option.some.inj h).symm
  · cases h

theorem narrowReference_eq_none_iff {tie : Tie} {a b : Int} :
    narrowReference tie a b = none ↔ ¬ (-128 ≤ narrowTrue tie a b ∧ narrowTrue tie a b ≤ 127) := by
  simp [narrowReference]

/-- Two operands within `[-127, 127]` have an oracle value (spec/70_reset_and_hazards.md R124). -/
theorem narrowReference_ne_none {tie : Tie} {a b : Int} (ha : |a| ≤ 127) (hb : |b| ≤ 127) :
    narrowReference tie a b ≠ none := by
  obtain ⟨hlo, hhi⟩ := abs_le.mp (abs_mul_le_of_abs_le_127 ha hb)
  obtain ⟨hlo', hhi'⟩ := narrow_roundDiv_nearest (a * b) tie
  rw [Ne, narrowReference_eq_none_iff, not_not, narrowTrue_eq_roundDiv]
  omega

theorem abs_sint_narrowResult_le (tie : Tie) (ooc : Byte) {a b : Byte} (h : ¬ (sint a = -128 ∧ sint b = -128)) :
    |sint (narrowResult tie ooc a b)| ≤ 127 := by
  rw [sint_narrowResult tie ooc h]
  exact abs_le.mpr (narrow_roundDiv_range tie h)

/-- Settles O13: the range of the true result, its ends by `narrow_roundDiv_eq_end_iff` and the named pairs of O11. -/
theorem narrowResultsInContractRange : Obligations.NarrowResultsInContractRange := by
  intro tie ooc a b h
  obtain ⟨-, hpos, -, hneg, -, -⟩ := outOfContractSetIsOnePair a b tie
  obtain ⟨hlo, hhi⟩ := abs_le.mp (abs_sint_narrowResult_le tie ooc h)
  obtain ⟨hend, hend'⟩ := narrow_roundDiv_eq_end_iff tie a b
  rw [← sint_narrowResult tie ooc h] at hend hend'
  exact ⟨hhi, hlo, hend.trans hpos, hend'.trans hneg, fun c d h' =>
    narrowReference_ne_none (abs_sint_narrowResult_le tie ooc h) (abs_sint_narrowResult_le tie ooc h')⟩

/-- Settles O28: the oracle answers none on the out-of-contract pair alone, and elsewhere both give the true result. -/
theorem narrowMatchesItsOracle : Obligations.NarrowMatchesItsOracle := by
  intro a b s
  have hnone := narrowReference_eq_none_iff.trans (not_narrowTrue_mem_iff Config.tie a b)
  refine ⟨_, exec_narrow a b s, fun v hv => ?_, hnone⟩
  have h : ¬ (sint a = -128 ∧ sint b = -128) := fun h => absurd ((hnone.mpr h).symm.trans hv) (by simp)
  rw [State.driveNr_nr, sint_narrowResult _ _ h, narrowReference_eq_some hv, narrowTrue_eq_roundDiv]

/-! ### Points of `narrow(a, b)` on integers of the narrow domain -/

/-- In contract `narrow(a, b)` is the rounded quotient (spec/40_narrow_path.md R59). -/
theorem narrowOf_eq_roundDiv (tie : Tie) (ooc : Byte) {a b : Int} (ha : -128 ≤ a ∧ a ≤ 127) (hb : -128 ≤ b ∧ b ≤ 127)
    (h : ¬ (a = -128 ∧ b = -128)) : narrowOf tie ooc a b = roundDiv (a * b) 7 tie := by
  have hsa : sint (bits 8 a) = a := sint_bits_narrow a ha.1 ha.2
  have hsb : sint (bits 8 b) = b := sint_bits_narrow b hb.1 hb.2
  rw [narrowOf, sint_narrowResult tie ooc (by rwa [hsa, hsb]), hsa, hsb]

/-- A product less than 64 away from `128 * t` gives `t`, whatever the tie rule. -/
theorem narrowOf_of_near (tie : Tie) (ooc : Byte) {a b t : Int} (ha : -128 ≤ a ∧ a ≤ 127) (hb : -128 ≤ b ∧ b ≤ 127)
    (h : ¬ (a = -128 ∧ b = -128)) (hnear : -64 < 128 * t - a * b ∧ 128 * t - a * b < 64) :
    narrowOf tie ooc a b = t := by
  have habs : |2 ^ 7 * t - a * b| < 64 := abs_lt.mpr hnear
  rw [narrowOf_eq_roundDiv tie ooc ha hb h]
  exact roundDiv_eq_of_near (by omega) (by norm_num) tie

/-- An exact half above an odd quotient that is not negative goes up under either tie rule (spec/00_scope.md R16). -/
theorem roundDiv_of_eq_half_of_odd {P q : Int} {s : Nat} (hs : 1 ≤ s) (h : 2 ^ s * q + 2 ^ (s - 1) = P) (hq : 0 ≤ q)
    (odd : q % 2 = 1) (tie : Tie) : roundDiv P s tie = q + 1 := by
  have hK := two_pow_eq_two_mul_half hs
  have hH : (0 : Int) < 2 ^ (s - 1) := by positivity
  have hP : 0 ≤ P := h ▸ (by positivity)
  obtain ⟨hdiv, hmod⟩ := divK_modK_unique h hH.le (by omega)
  cases tie with
  | halfAway => rw [roundDiv_halfAway_of_modK_eq hmod, if_pos hP, hdiv]
  | halfEven => rw [roundDiv_halfEven_of_modK_eq hmod, hdiv, if_neg (by omega)]

/-- Cancelling a common factor `2^j` of dividend and divisor (spec/00_scope.md R16). -/
theorem roundDiv_mul_two_pow (P : Int) (j : Nat) {s : Nat} (hs : 1 ≤ s) (tie : Tie) :
    roundDiv (P * 2 ^ j) (s + j) tie = roundDiv P s tie := by
  have hJ : (0 : Int) < 2 ^ j := by positivity
  have hdiv : divK (P * 2 ^ j) (s + j) = divK P s := by
    rw [divK, pow_add, Int.mul_ediv_mul_of_pos_left _ _ hJ, divK]
  have hmod : modK (P * 2 ^ j) (s + j) = modK P s * 2 ^ j := by
    rw [modK, pow_add, mul_comm P, mul_comm (2 ^ s), Int.mul_emod_mul_of_pos _ _ hJ, mul_comm, modK]
  have hhalf : (2 : Int) ^ (s + j - 1) = 2 ^ (s - 1) * 2 ^ j := by
    rw [← pow_add, Nat.sub_add_comm hs]
  simp only [roundDiv, hdiv, hmod, hhalf, mul_lt_mul_iff_left₀ hJ, mul_nonneg_iff_of_pos_right hJ]

/-- Halving an even integer is exact. -/
theorem two_mul_roundDiv_one_of_even {x : Int} (h : x % 2 = 0) (tie : Tie) : 2 * roundDiv x 1 tie = x := by
  rw [roundDiv_of_eq_mul (t := x / 2) (by omega) tie]
  omega

/-- `64` is the operand one half (spec/40_narrow_path.md R67). -/
theorem narrowOf_mul_64 (tie : Tie) (ooc : Byte) {x : Int} (hx : -128 ≤ x ∧ x ≤ 127) :
    narrowOf tie ooc x 64 = roundDiv x 1 tie := by
  rw [narrowOf_eq_roundDiv tie ooc hx (by norm_num) (by omega)]
  exact roundDiv_mul_two_pow x 6 le_rfl tie

/-- `127` is near identity: up to 64 the deficit `|x|` is not rounded away (spec/40_narrow_path.md R67). -/
theorem narrowOf_mul_127 (tie : Tie) (ooc : Byte) {x : Int} (hlo : -64 ≤ x) (hhi : x ≤ 64) :
    narrowOf tie ooc x 127 = x := by
  have half_64 : roundDiv (64 * 127) 7 tie = 64 :=
    roundDiv_of_eq_half_of_odd (q := 63) (by norm_num) (by norm_num) (by norm_num) (by norm_num) tie
  rcases eq_or_lt_of_le hhi with rfl | hlt
  · rw [narrowOf_eq_roundDiv tie ooc (by norm_num) (by norm_num) (by norm_num), half_64]
  · rcases eq_or_lt_of_le hlo with rfl | hgt
    · rw [narrowOf_eq_roundDiv tie ooc (by norm_num) (by norm_num) (by norm_num), neg_mul,
        roundDiv_neg _ (by norm_num), half_64]
    · exact narrowOf_of_near tie ooc (by omega) (by norm_num) (by omega) (by omega)

/-- `-128` negates (spec/40_narrow_path.md R67). -/
theorem narrowOf_mul_min (tie : Tie) (ooc : Byte) {x : Int} (hx : -127 ≤ x ∧ x ≤ 127) :
    narrowOf tie ooc x (-128) = -x ∧ narrowOf tie ooc (-128) x = -x :=
  ⟨narrowOf_of_near tie ooc (by omega) (by norm_num) (by omega) (by omega),
    narrowOf_of_near tie ooc (by norm_num) (by omega) (by omega) (by omega)⟩

/-- No operand leaves `127` as it is, so none is a multiplicative one (spec/42_arithmetic_laws.md R96). -/
theorem narrowOf_127_lt (tie : Tie) (ooc : Byte) {y : Int} (hy : -128 ≤ y ∧ y ≤ 127) : narrowOf tie ooc 127 y < 127 := by
  obtain ⟨-, hhi⟩ := narrow_roundDiv_nearest (127 * y) tie
  rw [narrowOf_eq_roundDiv tie ooc (by norm_num) hy (by norm_num)]
  omega

/-- The exact half `64 / 128` and its opposite: away from zero, or to the even zero (spec/40_narrow_path.md R68). -/
theorem narrowOf_64_one (tie : Tie) (ooc : Byte) :
    narrowOf tie ooc 64 1 = (if tie = .halfAway then 1 else 0) ∧
    narrowOf tie ooc (-64) 1 = (if tie = .halfAway then -1 else 0) := by
  rw [narrowOf_eq_roundDiv tie ooc (by norm_num) (by norm_num) (by norm_num),
    narrowOf_eq_roundDiv tie ooc (by norm_num) (by norm_num) (by norm_num)]
  cases tie <;> exact ⟨rfl, rfl⟩

/-- Settles O14: the rows by the distance of the product from a multiple of 128, with the exact halves apart. -/
theorem narrowCornerCases : Obligations.NarrowCornerCases := by
  intro tie ooc
  have hmin : narrowOf tie ooc (-128) (-128) = sint ooc :=
    congrArg sint (narrowResult_outOfContract tie ooc (by decide) (by decide))
  have hzero (x : Int) (hlo : -128 ≤ x) (hhi : x ≤ 127) : narrowOf tie ooc 0 x = 0 ∧ narrowOf tie ooc x 0 = 0 :=
    ⟨narrowOf_of_near tie ooc (by norm_num) (by omega) (by omega) (by omega),
      narrowOf_of_near tie ooc (by omega) (by norm_num) (by omega) (by omega)⟩
  have near {a b t : Int} := @narrowOf_of_near tie ooc a b t
  obtain ⟨hhalf, hhalf'⟩ := narrowOf_64_one tie ooc
  refine ⟨hzero, fun x hlo hhi => narrowOf_mul_min tie ooc ⟨hlo, hhi⟩, hmin,
    fun x hlo hhi => narrowOf_mul_127 tie ooc hlo hhi,
    near (by norm_num) (by norm_num) (by norm_num) (by norm_num),
    near (by norm_num) (by norm_num) (by norm_num) (by norm_num),
    near (by norm_num) (by norm_num) (by norm_num) (by norm_num),
    near (by norm_num) (by norm_num) (by norm_num) (by norm_num),
    near (by norm_num) (by norm_num) (by norm_num) (by norm_num),
    near (by norm_num) (by norm_num) (by norm_num) (by norm_num),
    near (by norm_num) (by norm_num) (by norm_num) (by norm_num),
    fun x hlo hhi => near (by omega) (by norm_num) (by omega) (by omega), hhalf, hhalf',
    fun x hlo hhi => near (by omega) (by norm_num) (by omega) (by omega),
    fun x hlo hhi => near (by omega) (by norm_num) (by omega) (by omega),
    fun x hlo hhi => ?_, fun x hlo hhi => ?_, fun y hlo hhi => ?_⟩
  · have hx := narrowOf_mul_64 tie ooc ⟨hlo, hhi⟩
    refine ⟨hx, fun heven => by rw [hx, two_mul_roundDiv_one_of_even heven], fun hodd => decide_eq_true ?_⟩
    simp only [modK]
    omega
  · rw [narrowOf_eq_roundDiv tie ooc (by omega) (by omega) (by omega)]
    exact roundDiv_nonneg (mul_self_nonneg x) 7 tie
  · exact ⟨127, by norm_num, by norm_num, (narrowOf_127_lt tie ooc ⟨hlo, hhi⟩).ne⟩

end Sys2Proof.Machine

/-!
## Proofs: the wide path (spec/41_wide_path.md R69, R70, R73, R74, R76, R79 to R82)

Results are read through the oracle, a clamp of the true result. The overflow predicates are bounds on the product, in which no
tie rule stands: at both boundaries the exact half lies beside an odd quotient, and both rules move it the same way.
-/

namespace Sys2Proof.Machine

/-! ### The clamped product -/

/-- Under `SYMMETRIC` the result is the true result clamped to `[-32767, 32767]` (spec/41_wide_path.md R69, R73). -/
theorem sint_wideResult_symmetric (tie : Tie) (a b : Half) :
    sint (wideResult tie .symmetric a b) = clamp (wideTrue tie (sint a) (sint b)) (-32767) 32767 := by
  rw [sint_wideResult, wideReference_symmetric]

/-- Settles O15: `exec_wide` gives the next state, and the result is a clamp. -/
theorem wideReturnsTheClampedProduct : Obligations.WideReturnsTheClampedProduct := by
  intro a b s
  refine ⟨wideResult Config.tie .symmetric a b, exec_wide a b s, ?_⟩
  rw [sint_wideResult_symmetric, wideTrue_eq_roundDiv]
  exact ⟨fun h => clamp_of_hi_le h.le (by norm_num), fun hlo hhi => clamp_of_mem hlo hhi,
    fun h => clamp_of_le_lo (by omega) (by norm_num)⟩

/-- Settles O19: the clamp at the floor, and `sint_wideResult_symmetric_range`. -/
theorem negativeSaturationIsSymmetric : Obligations.NegativeSaturationIsSymmetric := by
  refine ⟨fun a b s h => ⟨_, exec_wide a b s, ?_⟩, fun a b s => ⟨_, exec_wide a b s, ?_⟩⟩
  · have hlow : sint (wideResult Config.tie .symmetric a b) = -32767 := by
      rw [sint_wideResult_symmetric, clamp_of_le_lo (by omega) (by norm_num)]
    have hpattern : sint 0x8001#16 = -32767 := by decide
    exact ⟨eq_of_sint_eq (hlow.trans hpattern.symm), hlow⟩
  · obtain ⟨hlo, hhi⟩ := sint_wideResult_symmetric_range Config.tie a b
    exact ⟨hlo, hhi, wideResult_symmetric_ne_wideMIN Config.tie a b⟩

/-- A magnitude is clamped from above only. -/
theorem clamp_of_nonneg {t hi : Int} (ht : 0 ≤ t) (hhi : 0 ≤ hi) : clamp t (-hi) hi = min t hi := by
  rcases clamp_cases t (-hi) hi with ⟨hlt, -⟩ | ⟨-, hlt, hc⟩ | ⟨-, hle, hc⟩
  · omega
  · rw [hc, min_eq_right hlt.le]
  · rw [hc, min_eq_left hle]

/-- Clamping a true result is cutting its magnitude and keeping its sign (spec/41_wide_path.md R79). -/
theorem clamp_wideTrue_eq_sign (tie : Tie) (a b : Int) :
    clamp (wideTrue tie a b) (-32767) 32767 =
      if a < 0 ↔ b < 0 then min (roundDiv (|a| * |b|) 10 tie) 32767 else -min (roundDiv (|a| * |b|) 10 tie) 32767 := by
  have hm : clamp (roundDiv (|a| * |b|) 10 tie) (-32767) 32767 = min (roundDiv (|a| * |b|) 10 tie) 32767 :=
    clamp_of_nonneg (roundDiv_nonneg (by positivity) 10 tie) (by norm_num)
  rw [wideTrue_eq_roundDiv, roundDiv_mul_eq_sign a b (by norm_num)]
  split
  · exact hm
  · rw [clamp_neg _ (by norm_num), hm]

/-- Settles O25, by `clamp_wideTrue_eq_sign` at the state `exec_wide` gives. -/
theorem wideSaturatesTheMagnitude : Obligations.WideSaturatesTheMagnitude := by
  intro a b s
  exact ⟨_, exec_wide a b s, (sint_wideResult_symmetric Config.tie a b).trans (clamp_wideTrue_eq_sign _ _ _)⟩

/-! ### The range of the true result -/

/-- The range of the wide product: the least one needs both signs, so only one operand is `-32768`
(spec/41_wide_path.md R70). -/
theorem wide_product_range (a b : Half) : -1073709056 ≤ sint a * sint b ∧ sint a * sint b ≤ 1073741824 := by
  obtain ⟨ha, ha'⟩ := sint_wide_range a
  obtain ⟨hb, hb'⟩ := sint_wide_range b
  have hupper : |sint a * sint b| ≤ 32768 * 32768 := by
    rw [abs_mul]
    exact mul_le_mul (abs_le.mpr (by omega)) (abs_le.mpr (by omega)) (abs_nonneg _) (by norm_num)
  have hlower : -1073709056 ≤ sint a * sint b := by
    rcases lt_or_ge (sint a) 0 with hneg | hpos
    · linarith [mul_le_mul_of_nonpos_left hb' hneg.le]
    · linarith [mul_le_mul_of_nonneg_left hb hpos]
  exact ⟨hlower, (abs_le.mp hupper).2⟩

/-- Settles O16: both ends of the product's range are multiples of 1024, so `roundDiv_bounds` carries them over. -/
theorem wideTrueResultRange : Obligations.WideTrueResultRange := by
  refine fun tie => ⟨fun a b => ?_, wideTrue_of_mul_eq (by norm_num) tie, wideTrue_of_mul_eq (by norm_num) tie⟩
  obtain ⟨hlo, hhi⟩ := wide_product_range a b
  rw [wideTrue_eq_roundDiv]
  exact ⟨hlo, hhi, roundDiv_bounds (by omega) (by omega) tie⟩

/-! ### The saturation boundaries -/

/-- The true result exceeds the range just from the exact half below `32768` on, which both tie rules round up
(spec/41_wide_path.md R81). -/
theorem lt_wideTrue_iff (tie : Tie) (a b : Int) : 32767 < wideTrue tie a b ↔ 33553920 ≤ a * b := by
  rw [wideTrue_eq_roundDiv]
  have hqr := divK_modK (a * b) 10
  have hr0 := modK_nonneg (a * b) 10
  have hrK := modK_lt (a * b) 10
  rcases roundDiv_cases (a * b) 10 tie with ⟨hr, h⟩ | ⟨hr, h⟩ |
    ⟨hr, ⟨-, hP, h⟩ | ⟨-, hP, h⟩ | ⟨-, heven, h⟩ | ⟨-, hodd, h⟩⟩ <;> omega

/-- The same at the lower boundary, by the sign change (spec/41_wide_path.md R81). -/
theorem wideTrue_le_iff (tie : Tie) (a b : Int) : wideTrue tie a b ≤ -32768 ↔ a * b ≤ -33553920 := by
  have h := lt_wideTrue_iff tie (-a) b
  rw [wideTrue_neg_left, neg_mul] at h
  omega

/-- The rounding error of the wide path is at most half of 1024. -/
theorem wideTrue_nearest (tie : Tie) (a b : Int) :
    -512 ≤ 1024 * wideTrue tie a b - a * b ∧ 1024 * wideTrue tie a b - a * b ≤ 512 := by
  have h := roundDiv_nearest (a * b) (s := 10) (by norm_num) tie
  rw [show (2 : Int) ^ 10 = 1024 by norm_num, ← wideTrue_eq_roundDiv] at h
  exact abs_le.mp (by omega)

/-- No integer of the wide domain but zero is a multiple of 65537, which lies beyond it. -/
theorem eq_zero_of_65537_dvd {v : Half} (h : (65537 : Int) ∣ sint v) : sint v = 0 := by
  obtain ⟨hlo, hhi⟩ := sint_wide_range v
  exact Int.eq_zero_of_abs_lt_dvd h (abs_lt.mpr (by omega))

/-- No pair lies on the exact half below `-32768`: its product `-512 * 65537` has a prime factor that no operand has
(spec/41_wide_path.md R81). -/
theorem wide_product_ne_half_below_min (a b : Half) : sint a * sint b ≠ -33554944 := by
  intro h
  have hprime : Prime (65537 : Int) := Int.prime_ofNat_iff.mpr (by norm_num)
  rcases hprime.dvd_or_dvd (show (65537 : Int) ∣ sint a * sint b from ⟨-512, by rw [h]; norm_num⟩) with ha | hb
  · rw [eq_zero_of_65537_dvd ha, zero_mul] at h
    omega
  · rw [eq_zero_of_65537_dvd hb, mul_zero] at h
    omega

/-- The products that round to `-32768`, the same under both tie rules (spec/41_wide_path.md R81). -/
theorem wideTrue_eq_min_iff (tie : Tie) (a b : Half) :
    wideTrue tie (sint a) (sint b) = -32768 ↔ -33554944 < sint a * sint b ∧ sint a * sint b ≤ -33553920 := by
  have hle := wideTrue_le_iff tie (sint a) (sint b)
  have hne := wide_product_ne_half_below_min a b
  obtain ⟨hlo, hhi⟩ := wideTrue_nearest tie (sint a) (sint b)
  omega

theorem ovfPos_iff (tie : Tie) (a b : Int) : ovfPos tie a b = true ↔ 32767 < wideTrue tie a b := decide_eq_true_iff

theorem ovfNeg_iff (tie : Tie) (a b : Int) : ovfNeg tie a b = true ↔ wideTrue tie a b ≤ -32768 := decide_eq_true_iff

theorem ovfPos_tie (tie tie' : Tie) (a b : Int) : ovfPos tie a b = ovfPos tie' a b := by
  rw [Bool.eq_iff_iff, ovfPos_iff, ovfPos_iff, lt_wideTrue_iff, lt_wideTrue_iff]

theorem ovfNeg_tie (tie tie' : Tie) (a b : Int) : ovfNeg tie a b = ovfNeg tie' a b := by
  rw [Bool.eq_iff_iff, ovfNeg_iff, ovfNeg_iff, wideTrue_le_iff, wideTrue_le_iff]

/-- Off the exact halves no tie rule is consulted (spec/41_wide_path.md R81). -/
theorem wideTrue_tie_of_not_exactHalf {a b : Int} (h : exactHalf 10 a b = false) (tie tie' : Tie) :
    wideTrue tie a b = wideTrue tie' a b :=
  roundDiv_eq_of_modK_ne (of_decide_eq_false h) tie tie'

/-- Where the result saturates, or off the exact halves, the oracle does not depend on the tie rule
(spec/41_wide_path.md R81). -/
theorem wideReference_tie {tie : Tie} {a b : Int}
    (h : ovfPos tie a b = true ∨ ovfNeg tie a b = true ∨ exactHalf 10 a b = false) (tie₁ tie₂ : Tie) (floor : NegFloor) :
    wideReference tie₁ floor a b = wideReference tie₂ floor a b := by
  rcases h with habove | hbelow | hoff
  · have above (tie' : Tie) : 32767 < wideTrue tie' a b := (ovfPos_iff tie' a b).mp (ovfPos_tie tie' tie a b ▸ habove)
    rw [wideReference_of_lt_wideTrue (above tie₁), wideReference_of_lt_wideTrue (above tie₂)]
  · have below (tie' : Tie) : wideTrue tie' a b ≤ -32768 := (ovfNeg_iff tie' a b).mp (ovfNeg_tie tie' tie a b ▸ hbelow)
    rw [wideReference_of_wideTrue_le (below tie₁), wideReference_of_wideTrue_le (below tie₂)]
  · simp only [wideReference, wideTrue_tie_of_not_exactHalf hoff tie₁ tie₂]

/-- Settles O22: the boundaries are bounds on the product (`lt_wideTrue_iff`, `wideTrue_le_iff`, `wideTrue_eq_min_iff`), and the
result is the oracle's. -/
theorem tieNeverMovesASaturationBoundary : Obligations.TieNeverMovesASaturationBoundary := by
  intro tie a b
  refine ⟨?_, ovfPos_iff tie _ _, ovfNeg_iff tie _ _, ovfPos_tie _ _ _ _, ovfNeg_tie _ _ _ _, ?_, fun floor h => ?_⟩
  · rw [ovfPos_iff, ovfNeg_iff]
    omega
  · rw [wideTrue_eq_min_iff, wideTrue_eq_min_iff]
  · apply eq_of_sint_eq
    rw [sint_wideResult, sint_wideResult, wideReference_tie h]

/-! ### The negative floor -/

/-- Off the pinned pairs `POINTWISE` answers `-32768` below the range (spec/41_wide_path.md R74). -/
theorem wideFloor_pointwise_of_not_pinnedPair {a b : Int} (h : ¬ pinnedPair a b = true) :
    wideFloor .pointwise a b = -32768 := if_neg h

/-- Settles O20: below the range the result is `WideFloor`'s, and from `-32767` on the floor is not reached. -/
theorem negativeSaturationUnderEitherReading : Obligations.NegativeSaturationUnderEitherReading := by
  intro tie floor a b
  simp only [← pinnedPair_iff, sint_wideResult]
  refine ⟨fun ht => ?_, fun hp => ?_, fun ht hp hfloor => ?_, fun ht => ?_⟩
  · rw [wideReference_of_wideTrue_le ht]
    rcases wideFloor_cases floor (sint a) (sint b) with ⟨-, h⟩ | ⟨-, -, h⟩ | ⟨-, -, h⟩
    · exact .inr h
    · exact .inr h
    · exact .inl h
  · have ht := wideTrue_of_pinnedPair hp tie
    exact ⟨ht, by rw [wideReference_of_wideTrue_le ht.le, wideFloor_of_pinnedPair hp]⟩
  · rw [wideReference_of_wideTrue_le ht, hfloor, wideFloor_pointwise_of_not_pinnedPair hp]
  · apply eq_of_sint_eq
    rw [sint_wideResult, sint_wideResult]
    exact wideReference_pointwise_eq_symmetric fun ⟨hle, _⟩ => by omega

/-! ### The ten pairs that reach the minimum -/

/-- A factor of `2^25` is a power of two; with its cofactor within 16 bits it is one from `2^10` to `2^15`, of either sign. -/
theorem natAbs_of_mul_eq_neg_two_pow_25 {a b : Int} (hb : b.natAbs ≤ 32768) (ha : a.natAbs ≤ 32768)
    (h : a * b = -33554432) : a.natAbs ∈ [1024, 2048, 4096, 8192, 16384, 32768] := by
  have hmul : a.natAbs * b.natAbs = 2 ^ 25 := by
    rw [← Int.natAbs_mul, h]
    norm_num
  obtain ⟨k, -, hk⟩ := (Nat.dvd_prime_pow Nat.prime_two).mp (Dvd.intro _ hmul)
  rw [hk] at hmul ha ⊢
  have hlo : 10 ≤ k := by
    by_contra hlt
    have hpow : 2 ^ k ≤ 2 ^ 9 := Nat.pow_le_pow_right (by norm_num) (by omega)
    have hprod := Nat.mul_le_mul hpow hb
    omega
  have hhi : k ≤ 15 := (Nat.pow_le_pow_iff_right (le_refl 2)).mp ha
  interval_cases k <;> decide

/-- Settles O23: `natAbs_of_mul_eq_neg_two_pow_25` leaves six magnitudes of the first operand, each with one second operand,
and `32768` itself is no operand; the results by the floor. -/
theorem tenPairsReachTheMinimumExactly : Obligations.TenPairsReachTheMinimumExactly := by
  intro a b
  have ha := sint_wide_range a
  have hb := sint_wide_range b
  simp only [List.mem_cons, List.not_mem_nil, or_false, Prod.mk.injEq]
  refine ⟨⟨fun h => ?_, fun h => ?_⟩, fun h tie => ?_⟩
  · have hmem := natAbs_of_mul_eq_neg_two_pow_25 (by omega) (by omega) h
    simp only [List.mem_cons, List.not_mem_nil, or_false, Int.natAbs_eq_iff, Nat.cast_ofNat] at hmem
    rcases hmem with (hx | hx) | (hx | hx) | (hx | hx) | (hx | hx) | (hx | hx) | (hx | hx) <;> rw [hx] at h <;> omega
  · rcases h with ⟨hx, hy⟩ | ⟨hx, hy⟩ | ⟨hx, hy⟩ | ⟨hx, hy⟩ | ⟨hx, hy⟩ | ⟨hx, hy⟩ | ⟨hx, hy⟩ | ⟨hx, hy⟩ | ⟨hx, hy⟩ |
      ⟨hx, hy⟩ <;> rw [hx, hy] <;> norm_num
  · have ht : wideTrue tie (sint a) (sint b) ≤ -32768 := (wideTrue_le_iff tie _ _).mpr (by omega)
    rw [sint_wideResult, sint_wideResult, wideReference_of_wideTrue_le ht, wideReference_of_wideTrue_le ht]
    simp only [wideFloor, pinnedPair_iff, and_self]

/-! ### Corner cases -/

/-- `wide(a, b)` is the oracle's value on integers of the wide domain (spec/42_arithmetic_laws.md R86). -/
theorem wideOf_eq_wideReference (tie : Tie) (floor : NegFloor) {a b : Int} (ha : -32768 ≤ a ∧ a ≤ 32767)
    (hb : -32768 ≤ b ∧ b ≤ 32767) : wideOf tie floor a b = wideReference tie floor a b := by
  rw [wideOf, sint_wideResult, sint_bits_wide a ha.1 ha.2, sint_bits_wide b hb.1 hb.2]

/-- A product less than 512 away from `1024 * t` rounds to `t`, whatever the tie rule. -/
theorem wideTrue_of_near {a b t : Int} (h : -512 < 1024 * t - a * b ∧ 1024 * t - a * b < 512) (tie : Tie) :
    wideTrue tie a b = t := by
  have hnear := wideTrue_nearest tie a b
  omega

/-- A product less than 512 away from `1024 * t` gives `t` within the range (spec/41_wide_path.md R72). -/
theorem wideOf_of_near (tie : Tie) (floor : NegFloor) {a b t : Int} (ha : -32768 ≤ a ∧ a ≤ 32767)
    (hb : -32768 ≤ b ∧ b ≤ 32767) (ht : -32767 ≤ t ∧ t ≤ 32767)
    (h : -512 < 1024 * t - a * b ∧ 1024 * t - a * b < 512) : wideOf tie floor a b = t :=
  wideOf_of_wideTrue_eq ha hb (wideTrue_of_near h tie) ht floor

/-- A product from the exact half below `32768 * 1024` on saturates (spec/41_wide_path.md R71). -/
theorem wideOf_of_le_mul (tie : Tie) (floor : NegFloor) {a b : Int} (ha : -32768 ≤ a ∧ a ≤ 32767)
    (hb : -32768 ≤ b ∧ b ≤ 32767) (h : 33553920 ≤ a * b) : wideOf tie floor a b = 32767 :=
  wideOf_of_lt_wideTrue ha hb ((lt_wideTrue_iff tie a b).mpr h) floor

/-- Below the range and off the pinned pairs the value is the floor's (spec/41_wide_path.md R73, R74). -/
theorem wideOf_of_mul_le (tie : Tie) (floor : NegFloor) {a b : Int} (ha : -32768 ≤ a ∧ a ≤ 32767)
    (hb : -32768 ≤ b ∧ b ≤ 32767) (h : a * b ≤ -33553920) (hp : ¬ pinnedPair a b = true) :
    wideOf tie floor a b = if floor = .symmetric then -32767 else -32768 := by
  rw [wideOf_eq_wideReference tie floor ha hb, wideReference_of_wideTrue_le ((wideTrue_le_iff tie a b).mpr h)]
  cases floor with
  | symmetric => rfl
  | pointwise => exact wideFloor_pointwise_of_not_pinnedPair hp

/-- `512` is the operand one half (spec/41_wide_path.md R80). -/
theorem wideOf_mul_512 (tie : Tie) (floor : NegFloor) {x : Int} (hx : -32768 ≤ x ∧ x ≤ 32767) :
    wideOf tie floor x 512 = roundDiv x 1 tie := by
  have ht : wideTrue tie x 512 = roundDiv x 1 tie := roundDiv_mul_two_pow x 9 le_rfl tie
  have hnear := wideTrue_nearest tie x 512
  exact wideOf_of_wideTrue_eq hx (by norm_num) ht (by omega) floor

/-- The exact half `512 / 1024` and its opposite: away from zero, or to the even zero (spec/41_wide_path.md R81). -/
theorem wideOf_512_one (tie : Tie) (floor : NegFloor) :
    wideOf tie floor 512 1 = (if tie = .halfAway then 1 else 0) ∧
    wideOf tie floor (-512) 1 = (if tie = .halfAway then -1 else 0) := by
  have hpos : wideTrue tie 512 1 = if tie = .halfAway then 1 else 0 := by cases tie <;> rfl
  have hneg : wideTrue tie (-512) 1 = if tie = .halfAway then -1 else 0 := by cases tie <;> rfl
  exact ⟨wideOf_of_wideTrue_eq (by norm_num) (by norm_num) hpos (by split <;> norm_num) floor,
    wideOf_of_wideTrue_eq (by norm_num) (by norm_num) hneg (by split <;> norm_num) floor⟩

/-- Settles O24: each row by where its product lies, between the boundaries near a multiple of 1024, above, or below them. -/
theorem wideCornerCases : Obligations.WideCornerCases := by
  intro tie floor
  have near {a b t : Int} := @wideOf_of_near tie floor a b t
  have high {a b : Int} := @wideOf_of_le_mul tie floor a b
  have low {a b : Int} := @wideOf_of_mul_le tie floor a b
  obtain ⟨hhalf, hhalf'⟩ := wideOf_512_one tie floor
  refine ⟨
    fun x hlo hhi => ⟨near (by omega) (by omega) (by omega) (by omega), near (by omega) (by omega) (by omega) (by omega)⟩,
    fun x hlo hhi => ⟨near (by omega) (by omega) (by omega) (by omega), near (by omega) (by omega) (by omega) (by omega)⟩,
    wideOf_of_pinnedPair (by decide) tie floor, wideOf_of_pinnedPair (by decide) tie floor,
    high (by decide) (by decide) (by decide), low (by decide) (by decide) (by decide) (by decide),
    low (by decide) (by decide) (by decide) (by decide), low (by decide) (by decide) (by decide) (by decide),
    high (by decide) (by decide) (by decide), low (by decide) (by decide) (by decide) (by decide),
    near (by decide) (by decide) (by decide) (by decide), low (by decide) (by decide) (by decide) (by decide),
    low (by decide) (by decide) (by decide) (by decide), low (by decide) (by decide) (by decide) (by decide),
    low (by decide) (by decide) (by decide) (by decide), high (by decide) (by decide) (by decide),
    wideTrue_of_near (by decide) tie, high (by decide) (by decide) (by decide), wideTrue_of_near (by decide) tie,
    near (by decide) (by decide) (by decide) (by decide), wideTrue_of_near (by decide) tie,
    high (by decide) (by decide) (by decide), wideTrue_of_near (by decide) tie,
    low (by decide) (by decide) (by decide) (by decide), near (by decide) (by decide) (by decide) (by decide),
    near (by decide) (by decide) (by decide) (by decide), near (by decide) (by decide) (by decide) (by decide),
    near (by decide) (by decide) (by decide) (by decide),
    fun x hlo hhi => near (by omega) (by omega) (by omega) (by omega), hhalf, hhalf', fun x hlo hhi => ?_⟩
  have hx := wideOf_mul_512 tie floor ⟨hlo, hhi⟩
  refine ⟨hx, fun heven => by rw [hx, two_mul_roundDiv_one_of_even heven], fun hodd => decide_eq_true ?_⟩
  simp only [modK]
  omega

end Sys2Proof.Machine

/-!
## Proofs: the native-width datapaths (spec/42_arithmetic_laws.md R97 to R99)

After `k` rounds the loop holds quotient and remainder of `ma` times the low `k` bits of `mb`, the quotient modulo `2^width`; on
the wide path `ovf` tells whether something was lost there. Rounding then gives `RoundDiv` of the product of the magnitudes, and
the sign of the product is put on at the end.
-/

namespace Sys2Proof.Machine

/-! ### Magnitudes, signs and rounding -/

theorem cast_toNat_magnitude {n : Nat} (v : BitVec n) : ((magnitude v).toNat : Int) = |sint v| := by
  have habs : (magnitude v).toNat = if v.msb then 2 ^ n - v.toNat else v.toNat := BitVec.toNat_abs
  have hlt : v.toNat < 2 ^ n := v.isLt
  rw [habs, sint, BitVec.toInt_eq_msb_cond]
  split
  · rw [abs_of_neg (by omega)]
    omega
  · rw [abs_of_nonneg (by omega)]

/-- The product of the magnitudes, as the loops compute it. -/
theorem cast_magnitude_mul {n : Nat} (a b : BitVec n) :
    (((magnitude a).toNat * (magnitude b).toNat : Nat) : Int) = |sint a| * |sint b| := by
  rw [Nat.cast_mul, cast_toNat_magnitude, cast_toNat_magnitude]

theorem signsDiffer_eq_false_iff {n : Nat} (a b : BitVec n) : signsDiffer a b = false ↔ (sint a < 0 ↔ sint b < 0) := by
  rw [signsDiffer, BitVec.msb_eq_toInt, BitVec.msb_eq_toInt, bne_eq_false_iff_eq, decide_eq_decide, sint, sint]

theorem signsDiffer_eq_true_iff {n : Nat} (a b : BitVec n) : signsDiffer a b = true ↔ ¬ (sint a < 0 ↔ sint b < 0) := by
  rw [← signsDiffer_eq_false_iff, Bool.not_eq_false]

/-- Both last lines put the sign of the product on a magnitude as on an integer (spec/42_arithmetic_laws.md R98, R99). -/
theorem sign_bits {n : Nat} (a b : BitVec n) (w : Nat) (m : Int) :
    (if signsDiffer a b then -bits w m else bits w m) = bits w (if sint a < 0 ↔ sint b < 0 then m else -m) := by
  have hneg : -bits w m = bits w (-m) := BitVec.ofInt_neg.symm
  by_cases h : sint a < 0 ↔ sint b < 0
  · rw [if_pos h, (signsDiffer_eq_false_iff a b).mpr h]
    rfl
  · rw [if_neg h, (signsDiffer_eq_true_iff a b).mpr h, hneg]
    rfl

/-- Whether a magnitude with this quotient and remainder rounds up (spec/42_arithmetic_laws.md R98, R99). -/
def RoundsUp (s : Nat) (tie : Tie) (N : Nat) : Prop :=
  2 ^ (s - 1) < N % 2 ^ s ∨ (N % 2 ^ s = 2 ^ (s - 1) ∧ (tie = .halfAway ∨ N / 2 ^ s % 2 = 1))

/-- On magnitudes `RoundDiv` is the quotient, plus one where it rounds up (spec/00_scope.md R16). -/
theorem roundDiv_natCast (N s : Nat) (tie : Tie) :
    (RoundsUp s tie N ∧ roundDiv N s tie = (N / 2 ^ s + 1 : Nat)) ∨
    (¬ RoundsUp s tie N ∧ roundDiv N s tie = (N / 2 ^ s : Nat)) := by
  have hq : divK N s = (N / 2 ^ s : Nat) := by rw [divK]; push_cast; rfl
  have hr : modK N s = (N % 2 ^ s : Nat) := by rw [modK]; push_cast; rfl
  have hH : ((2 : Int) ^ (s - 1)) = (2 ^ (s - 1) : Nat) := by push_cast; rfl
  have hcases := roundDiv_cases N s tie
  rw [hq, hr, hH] at hcases
  rcases hcases with ⟨h, hd⟩ | ⟨h, hd⟩ | ⟨h, ⟨rfl, -, hd⟩ | ⟨-, hneg, -⟩ | ⟨rfl, heven, hd⟩ | ⟨rfl, hodd, hd⟩⟩
  · refine .inr ⟨?_, hd⟩
    rintro (hgt | ⟨heq, -⟩) <;> omega
  · exact .inl ⟨.inl (by omega), hd⟩
  · exact .inl ⟨.inr ⟨by omega, .inl rfl⟩, hd⟩
  · omega
  · refine .inr ⟨?_, hd⟩
    rintro (hgt | ⟨-, h' | hodd⟩)
    · omega
    · cases h'
    · omega
  · exact .inl ⟨.inr ⟨by omega, .inr (by omega)⟩, hd⟩

theorem halfUp_iff {n : Nat} (tie : Tie) (q : BitVec n) : halfUp tie q = true ↔ tie = .halfAway ∨ q.toNat % 2 = 1 := by
  cases tie with
  | halfAway => simp [halfUp]
  | halfEven => simp [halfUp, BitVec.getLsbD, Nat.testBit_zero]

/-- Both datapaths test remainder and quotient for rounding up (spec/42_arithmetic_laws.md R98, R99). -/
theorem roundUpTest_iff {n s N : Nat} {q r half : BitVec n} (tie : Tie) (hhalf : half.toNat = 2 ^ (s - 1))
    (hr : r.toNat = N % 2 ^ s) (hodd : q.toNat % 2 = N / 2 ^ s % 2) :
    (decide (half < r) || (decide (r = half) && halfUp tie q)) = true ↔ RoundsUp s tie N := by
  simp only [Bool.or_eq_true, Bool.and_eq_true, decide_eq_true_eq, halfUp_iff, BitVec.lt_def, ← BitVec.toNat_inj, hhalf, hr,
    hodd, RoundsUp]

theorem toNat_one_narrow : (1 : Byte).toNat = 1 := rfl

theorem toNat_one_wide : (1 : Half).toNat = 1 := rfl

/-- The low `k + 1` bits of a multiplier are its low `k` bits and bit `k`. -/
theorem mul_mod_two_pow_succ (m : Nat) {n : Nat} (v : BitVec n) (k : Nat) :
    m * (v.toNat % 2 ^ (k + 1)) = m * (v.toNat % 2 ^ k) + if v.getLsbD k then m * 2 ^ k else 0 := by
  rw [Nat.mod_pow_succ, BitVec.getLsbD, Nat.testBit_eq_decide_div_mod_eq, mul_add]
  rcases Nat.mod_two_eq_zero_or_one (v.toNat / 2 ^ k) with h | h <;> simp [h]

/-! ### The narrow datapath -/

/-- The sum so far is `N`, its quotient kept modulo `2^8` (spec/42_arithmetic_laws.md R98: `sum = q * 128 + r`). -/
def NarrowSum.Holds (u : NarrowSum) (N : Nat) : Prop := u.q.toNat = N / 128 % 256 ∧ u.r.toNat = N % 128

theorem mul_two_pow_div {m d i : Nat} (hi : i ≤ d) : m * 2 ^ i / 2 ^ d = m / 2 ^ (d - i) := by
  conv_lhs => rw [← Nat.sub_add_cancel hi, pow_add, Nat.mul_div_mul_right _ _ (by positivity)]

/-- The two parts of `ma * 2^i` that the narrow loop adds (spec/42_arithmetic_laws.md R98). -/
theorem narrow_addend (ma : Byte) {i : Nat} (hi : i ≤ 7) :
    (if i = 7 then ma else ma >>> (7 - i)).toNat = ma.toNat * 2 ^ i / 128 % 256 ∧
    (if i = 7 then (0 : Byte) else (ma <<< i) &&& 0x7F#8).toNat = ma.toNat * 2 ^ i % 128 := by
  have hlt : ma.toNat < 256 := ma.isLt
  have hdiv : ma.toNat * 2 ^ i / 128 = ma.toNat / 2 ^ (7 - i) := mul_two_pow_div (d := 7) hi
  have hle : ma.toNat / 2 ^ (7 - i) ≤ ma.toNat := Nat.div_le_self _ _
  rw [hdiv, Nat.mod_eq_of_lt (by omega)]
  by_cases h7 : i = 7
  · subst h7
    simp
  · simp only [if_neg h7, BitVec.toNat_ushiftRight, Nat.shiftRight_eq_div_pow, BitVec.toNat_and, BitVec.toNat_shiftLeft,
      Nat.shiftLeft_eq, BitVec.toNat_ofNat, true_and]
    exact (Nat.and_two_pow_sub_one_eq_mod _ 7).trans (Nat.mod_mod_of_dvd _ (by norm_num))

/-- One round of the narrow loop. -/
theorem narrowAdd_holds {u : NarrowSum} {N : Nat} (hu : u.Holds N) (ma : Byte) {i : Nat} (hi : i ≤ 7) :
    (narrowAdd ma i u).Holds (N + ma.toNat * 2 ^ i) := by
  obtain ⟨hq, hr⟩ := hu
  obtain ⟨htq, htr⟩ := narrow_addend ma hi
  simp only [narrowAdd, NarrowSum.Holds]
  generalize (if i = 7 then ma else ma >>> (7 - i)) = tq at *
  generalize (if i = 7 then (0 : Byte) else (ma <<< i) &&& 0x7F#8) = tr at *
  generalize ma.toNat * 2 ^ i = M at *
  split <;>
    simp only [toNat_one_narrow, BitVec.le_def, BitVec.toNat_add, BitVec.toNat_sub, BitVec.toNat_ofNat] at * <;> omega

/-- The narrow loop multiplies by the low `k` bits (spec/42_arithmetic_laws.md R98). -/
theorem narrowLoop_holds (ma mb : Byte) {k : Nat} (hk : k ≤ 8) :
    (narrowLoop ma mb k).Holds (ma.toNat * (mb.toNat % 2 ^ k)) := by
  induction k with
  | zero => simp [narrowLoop, NarrowSum.Holds, Nat.mod_one]
  | succ k ih =>
    have hprev := ih (by omega)
    rw [mul_mod_two_pow_succ, narrowLoop]
    split
    · exact narrowAdd_holds hprev ma (by omega)
    · exact hprev

/-- The rounded magnitude is `RoundDiv` of the product of the magnitudes (spec/42_arithmetic_laws.md R98). -/
theorem narrowMagnitude_eq_bits_roundDiv (tie : Tie) (a b : Byte) :
    narrowMagnitude tie a b = bits 8 (roundDiv (|sint a| * |sint b|) 7 tie) := by
  have hloop := narrowLoop_holds (magnitude a) (magnitude b) le_rfl
  rw [Nat.mod_eq_of_lt (magnitude b).isLt] at hloop
  rw [← cast_magnitude_mul]
  generalize (magnitude a).toNat * (magnitude b).toNat = N at *
  obtain ⟨hq, hr⟩ := hloop
  simp only [narrowMagnitude]
  generalize narrowLoop (magnitude a) (magnitude b) 8 = u at *
  have hup := roundUpTest_iff (half := 64#8) (s := 7) (N := N) tie rfl hr
    (show u.q.toNat % 2 = N / 128 % 2 by omega)
  rcases roundDiv_natCast N 7 tie with ⟨hround, h⟩ | ⟨hround, h⟩
  · rw [if_pos (hup.mpr hround), h, bits, BitVec.ofInt_natCast, ← BitVec.toNat_inj, BitVec.toNat_add, BitVec.toNat_ofNat, hq,
      toNat_one_narrow]
    norm_num
  · rw [if_neg (mt hup.mp hround), h, bits, BitVec.ofInt_natCast, ← BitVec.toNat_inj, BitVec.toNat_ofNat, hq]
    norm_num

/-- Settles O30: the last line puts the sign on the magnitude, which at `(-128, -128)` is `16384 / 128`. -/
theorem narrowDatapathComputesNarrow : Obligations.NarrowDatapathComputesNarrow := by
  intro tie ooc a b
  split
  case isTrue h =>
    obtain ⟨ha, hb⟩ := h
    refine ⟨?_, (signsDiffer_eq_false_iff a b).mpr (by omega)⟩
    rw [narrowMagnitude_eq_bits_roundDiv, ha, hb, roundDiv_of_eq_mul (t := 128) (by norm_num)]
    rfl
  case isFalse h =>
    obtain ⟨hout, -⟩ | ⟨-, hres⟩ := narrowResult_cases tie ooc a b
    · exact absurd hout h
    · simp only [narrowDatapath, narrowMagnitude_eq_bits_roundDiv]
      rw [sign_bits, ← roundDiv_mul_eq_sign _ _ (by norm_num), hres]

/-! ### The wide datapath -/

/-- The sum so far is `N`, its quotient kept modulo `2^16`, and `ovf` tells whether that lost something
(spec/42_arithmetic_laws.md R99: `sum = q * 1024 + r` unless `ovf`). -/
def WideSum.Holds (u : WideSum) (N : Nat) : Prop :=
  u.q.toNat = N / 1024 % 65536 ∧ u.r.toNat = N % 1024 ∧ (u.ovf = true ↔ 65536 ≤ N / 1024)

/-- The two parts of `ma * 2^i` that the wide loop adds, and what its shift loses (spec/42_arithmetic_laws.md R99). -/
theorem wide_addend (ma : Half) (i : Nat) :
    (if 10 ≤ i then ma <<< (i - 10) else ma >>> (10 - i)).toNat = ma.toNat * 2 ^ i / 1024 % 65536 ∧
    (if 10 ≤ i then (0 : Half) else (ma <<< i) &&& 0x03FF#16).toNat = ma.toNat * 2 ^ i % 1024 ∧
    ((decide (10 ≤ i) && decide ((ma <<< (i - 10)) >>> (i - 10) ≠ ma)) = true ↔ 65536 ≤ ma.toNat * 2 ^ i / 1024) := by
  have hlt : ma.toNat < 65536 := ma.isLt
  by_cases h10 : 10 ≤ i
  · have hpow : ma.toNat * 2 ^ i = ma.toNat * 2 ^ (i - 10) * 1024 := by
      rw [mul_assoc, show 1024 = 2 ^ 10 by norm_num, ← pow_add, Nat.sub_add_cancel h10]
    have hlost : (ma <<< (i - 10)) >>> (i - 10) ≠ ma ↔ 65536 ≤ ma.toNat * 2 ^ (i - 10) := by
      rw [Ne, ← BitVec.toNat_inj, BitVec.toNat_ushiftRight, BitVec.toNat_shiftLeft, Nat.shiftRight_eq_div_pow,
        Nat.shiftLeft_eq]
      rcases Nat.lt_or_ge (ma.toNat * 2 ^ (i - 10)) 65536 with hfits | hlost
      · rw [Nat.mod_eq_of_lt hfits, Nat.mul_div_cancel _ (by positivity)]
        simp [hfits]
      · have hle := Nat.div_mul_le_self (ma.toNat * 2 ^ (i - 10) % 2 ^ 16) (2 ^ (i - 10))
        refine iff_of_true (fun heq => ?_) hlost
        rw [heq] at hle
        omega
    rw [hpow, Nat.mul_div_cancel _ (by norm_num), Nat.mul_mod_left]
    simp only [h10, if_true, decide_true, Bool.true_and, decide_eq_true_eq, hlost]
    simp [BitVec.toNat_shiftLeft, Nat.shiftLeft_eq]
  · have hdiv : ma.toNat * 2 ^ i / 1024 = ma.toNat / 2 ^ (10 - i) := mul_two_pow_div (d := 10) (by omega)
    have hle : ma.toNat / 2 ^ (10 - i) ≤ ma.toNat := Nat.div_le_self _ _
    rw [hdiv, Nat.mod_eq_of_lt (by omega)]
    simp only [h10, if_false, BitVec.toNat_ushiftRight, Nat.shiftRight_eq_div_pow, BitVec.toNat_and, BitVec.toNat_shiftLeft,
      Nat.shiftLeft_eq, BitVec.toNat_ofNat, true_and, decide_false, Bool.false_and]
    exact ⟨(Nat.and_two_pow_sub_one_eq_mod _ 10).trans (Nat.mod_mod_of_dvd _ (by norm_num)),
      iff_of_false (by simp) (by omega)⟩

theorem addCarry_fst (x y : Half) : (addCarry x y).1.toNat = (x.toNat + y.toNat) % 65536 := BitVec.toNat_add x y

theorem addCarry_snd (x y : Half) : (addCarry x y).2 = true ↔ 65536 ≤ x.toNat + y.toNat := by
  simp only [addCarry, decide_eq_true_eq, BitVec.lt_def, BitVec.toNat_add]
  omega

/-- One round of the wide loop: the sum overflows when an addend, a carry or the carry from the remainder does. -/
theorem wideAdd_holds {u : WideSum} {N : Nat} (hu : u.Holds N) (ma : Half) (i : Nat) :
    (wideAdd ma i u).Holds (N + ma.toNat * 2 ^ i) := by
  obtain ⟨hq, hr, hovf⟩ := hu
  obtain ⟨htq, htr, hlost⟩ := wide_addend ma i
  simp only [wideAdd, WideSum.Holds]
  generalize (if 10 ≤ i then ma <<< (i - 10) else ma >>> (10 - i)) = tq at *
  generalize (if 10 ≤ i then (0 : Half) else (ma <<< i) &&& 0x03FF#16) = tr at *
  generalize (decide (10 ≤ i) && decide ((ma <<< (i - 10)) >>> (i - 10) ≠ ma)) = lost at *
  generalize ma.toNat * 2 ^ i = M at *
  split <;>
    simp only [toNat_one_wide, Bool.or_eq_true, addCarry_fst, addCarry_snd, hovf, hlost, BitVec.le_def, BitVec.toNat_add,
      BitVec.toNat_sub, BitVec.toNat_ofNat] at * <;> omega

/-- The wide loop multiplies by the low `k` bits (spec/42_arithmetic_laws.md R99). -/
theorem wideLoop_holds (ma mb : Half) (k : Nat) : (wideLoop ma mb k).Holds (ma.toNat * (mb.toNat % 2 ^ k)) := by
  induction k with
  | zero => simp [wideLoop, WideSum.Holds, Nat.mod_one]
  | succ k ih =>
    rw [mul_mod_two_pow_succ, wideLoop]
    split
    · exact wideAdd_holds ih ma k
    · exact ih

/-- The rounded quotient is `RoundDiv` of the product of the magnitudes, and the flag tells whether it fits 16 bits
(spec/42_arithmetic_laws.md R99). -/
theorem wideRounded_eq_roundDiv (tie : Tie) (a b : Half) :
    (wideRounded tie a b).1 = bits 16 (roundDiv (|sint a| * |sint b|) 10 tie) ∧
    ((wideRounded tie a b).2 = true ↔ 65536 ≤ roundDiv (|sint a| * |sint b|) 10 tie) := by
  have hloop := wideLoop_holds (magnitude a) (magnitude b) 16
  rw [Nat.mod_eq_of_lt (magnitude b).isLt] at hloop
  rw [← cast_magnitude_mul]
  generalize (magnitude a).toNat * (magnitude b).toNat = N at *
  obtain ⟨hq, hr, hovf⟩ := hloop
  simp only [wideRounded]
  generalize wideLoop (magnitude a) (magnitude b) 16 = u at *
  have hup := roundUpTest_iff (half := 512#16) (s := 10) (N := N) tie rfl hr
    (show u.q.toNat % 2 = N / 1024 % 2 by omega)
  rcases roundDiv_natCast N 10 tie with ⟨hround, h⟩ | ⟨hround, h⟩
  · rw [if_pos (hup.mpr hround), h, bits, BitVec.ofInt_natCast, ← BitVec.toNat_inj, addCarry_fst, BitVec.toNat_ofNat, hq,
      Bool.or_eq_true, addCarry_snd, hovf, hq, toNat_one_wide]
    norm_num
    omega
  · rw [if_neg (mt hup.mp hround), h, bits, BitVec.ofInt_natCast, ← BitVec.toNat_inj, BitVec.toNat_ofNat, hq, hovf]
    norm_num
    omega

/-- The saturation test is that the magnitude exceeds `32767` (spec/42_arithmetic_laws.md R99). -/
theorem wideSaturates_iff (tie : Tie) (a b : Half) :
    wideSaturates tie a b = true ↔ 32767 < roundDiv (|sint a| * |sint b|) 10 tie := by
  obtain ⟨hq, hovf⟩ := wideRounded_eq_roundDiv tie a b
  have hm : 0 ≤ roundDiv (|sint a| * |sint b|) 10 tie := roundDiv_nonneg (by positivity) 10 tie
  have hbits := toNat_bits 16 (roundDiv (|sint a| * |sint b|) 10 tie)
  simp only [wideSaturates, Bool.or_eq_true, hovf, hq, decide_eq_true_eq, BitVec.lt_def, BitVec.toNat_ofNat]
  omega

/-- Before its sign the wide datapath has the magnitude cut at `32767` (spec/42_arithmetic_laws.md R99). -/
theorem wideDatapath_eq_sign (tie : Tie) (a b : Half) :
    wideDatapath tie a b =
      if signsDiffer a b then -bits 16 (min (roundDiv (|sint a| * |sint b|) 10 tie) 32767)
      else bits 16 (min (roundDiv (|sint a| * |sint b|) 10 tie) 32767) := by
  have hcut : (if wideSaturates tie a b then 32767#16 else (wideRounded tie a b).1) =
      bits 16 (min (roundDiv (|sint a| * |sint b|) 10 tie) 32767) := by
    split
    case isTrue h =>
      rw [min_eq_right ((wideSaturates_iff tie a b).mp h).le]
      rfl
    case isFalse h =>
      rw [wideSaturates_iff, not_lt] at h
      rw [min_eq_left h, (wideRounded_eq_roundDiv tie a b).1]
  simp only [wideDatapath, hcut]

/-- The wide datapath is the wide path under `SYMMETRIC`: both cut the magnitude and keep the sign of the product. -/
theorem wideDatapath_eq_wideResult (tie : Tie) (a b : Half) : wideDatapath tie a b = wideResult tie .symmetric a b := by
  have hres : wideResult tie .symmetric a b = bits 16 (clamp (wideTrue tie (sint a) (sint b)) (-32767) 32767) := by
    rw [← sint_wideResult_symmetric]
    exact BitVec.ofInt_toInt.symm
  rw [hres, clamp_wideTrue_eq_sign, wideDatapath_eq_sign, sign_bits]

/-- Settles O31: `wideDatapath_eq_wideResult`, and the test by the sign that the true result has. -/
theorem wideDatapathComputesWide : Obligations.WideDatapathComputesWide := by
  intro tie a b
  have hsign := roundDiv_mul_eq_sign (sint a) (sint b) (s := 10) (by norm_num) tie
  refine ⟨wideDatapath_eq_wideResult tie a b, fun h => ?_, fun h => ?_⟩
  · rw [if_pos ((signsDiffer_eq_false_iff a b).mp h)] at hsign
    rw [Bool.eq_iff_iff, wideSaturates_iff, ovfPos_iff, wideTrue_eq_roundDiv, hsign]
  · rw [if_neg ((signsDiffer_eq_true_iff a b).mp h)] at hsign
    rw [Bool.eq_iff_iff, wideSaturates_iff, ovfNeg_iff, wideTrue_eq_roundDiv, hsign]
    omega

end Sys2Proof.Machine
